-- ==== Sys2Proof/Word.lean ====
section
/-! DEFINITION. The word types of the Fixed-point ALU (spec/00_scope.md R5, R6). -/

namespace Sys2Proof

/-- A WideWord: 128 bits, bit 127 the most significant (R5, R6, R80). -/
abbrev Word := BitVec 128

/-- One of the two 64-bit halves of a WideWord; limb 0 is the low one (R5, R41). -/
abbrev Limb := BitVec 64

/-- A command word as the host issues it: one 64-bit value, bit 63 the most significant (R41, R50). -/
abbrev Command := BitVec 64

end Sys2Proof
end

