-- ==== Sys2Proof/Config.lean ====
section
/-! DEFINITION. The parameters of the hardware (spec/00_scope.md R5) and the free values: the results the
spec calls undefined. A free value is opaque: nothing can be proved of it. -/

namespace Sys2Proof

/-- `WORD`: bits of a WideWord (R5). -/
def Config.wordBits : Nat := 128

/-- `LIMB`: bits of a limb (R5). -/
def Config.limbBits : Nat := 64

/-- `NREG`: the number of value registers (R5, R21). -/
def Config.nreg : Nat := 8

/-- Shift left by an amount outside `0 <= n < 128`: "a contract violation (undefined)" (R88).
DESIGN CHOICE, safe (log 6): a free value. -/
opaque Config.undefinedShl : Word → Nat → Word

/-- Logical shift right by an amount outside `0 <= n < 128` (R88). DESIGN CHOICE, safe (log 6). -/
opaque Config.undefinedShrU : Word → Nat → Word

/-- Arithmetic shift right by an amount outside `0 <= n < 128` (R88). DESIGN CHOICE, safe (log 6). -/
opaque Config.undefinedShrS : Word → Nat → Word

/-- `bit(n)` for `n` outside `0 <= n < 128` (R88). DESIGN CHOICE, safe (log 6). -/
opaque Config.undefinedBit : Nat → Word

/-- `lowmask(n)` for `n` outside `0 <= n < 128` (R88). DESIGN CHOICE, safe (log 6). -/
opaque Config.undefinedLowmask : Nat → Word

/-- The signed word divide by zero: "there is no result" (R90). DESIGN CHOICE, safe (log 7). -/
opaque Config.undefinedDivS : Word → Word

/-- The unsigned word divide by zero: "there is no result" (R90). DESIGN CHOICE, safe (log 7). -/
opaque Config.undefinedDivU : Word → Word

/-- Whether the host's rounding of `a / 2^k` to an integer goes up when it lies exactly half way: the spec does
not settle "the tie rule of round to the nearest integer" (R180). DESIGN CHOICE, safe (log 12): a free value. -/
opaque Config.hostTieGoesUp : Int → Nat → Bool

end Sys2Proof
end

