-- ==== Sys2Proof/Syntax.lean ====
section
/-! DEFINITION. The commands of FXALU-1: one constructor of `Instr` per row of spec/opcode_table.json
(spec/30_encoding.md R52 to R59). The pseudo-instructions of R64 are other names of these. -/

namespace Sys2Proof

/-- A value register number, 0 to 7 (R21, R54). -/
abbrev Reg := Fin 8

/-- The signedness bit `S` of a command: 1 signed, 0 unsigned (R51, R56). -/
inductive Sign where
  | unsigned
  | signed
deriving DecidableEq, Repr

/-- The rounding mode `RM` of PUT and CVT (R55): truncate, round to nearest with ties up, round toward zero. -/
inductive Rounding where
  | trn
  | rnd
  | rtz
deriving DecidableEq, Repr

/-- A format `<I,F>`: IntBits and FracBits (R5, R101). The signedness stands in the command (R52). -/
structure Fmt where
  int : Int
  frac : Nat
deriving DecidableEq, Repr

/-- The fifteen commands. Operands are those R59 lists as used: destination, sources, signedness,
format A, format B. -/
inductive Instr where
  /-- PUT.TRN (R121): destination, signedness, target format. -/
  | putTrn (rd : Reg) (sg : Sign) (fb : Fmt)
  /-- PUT.RND (R122). -/
  | putRnd (rd : Reg) (sg : Sign) (fb : Fmt)
  /-- PUT.RTZ (R123). -/
  | putRtz (rd : Reg) (sg : Sign) (fb : Fmt)
  /-- GET (R124): source. -/
  | get (ra : Reg)
  /-- CVT.TRN (R127): destination, source, signedness, source format, target format. -/
  | cvtTrn (rd ra : Reg) (sg : Sign) (fa fb : Fmt)
  /-- CVT.RND (R128). -/
  | cvtRnd (rd ra : Reg) (sg : Sign) (fa fb : Fmt)
  /-- CVT.RTZ (R129). -/
  | cvtRtz (rd ra : Reg) (sg : Sign) (fa fb : Fmt)
  /-- SAT (R130), signed only. -/
  | sat (rd ra : Reg) (fa fb : Fmt)
  /-- TOVF (R131): source, signedness, source format, the IntBits tested against. -/
  | tovf (ra : Reg) (sg : Sign) (fa : Fmt) (it : Int)
  /-- ADD (R141): destination, left source, right source, signedness, left format, right format. -/
  | add (rd ra rb : Reg) (sg : Sign) (fa fb : Fmt)
  /-- SUB (R142). -/
  | sub (rd ra rb : Reg) (sg : Sign) (fa fb : Fmt)
  /-- NEG (R143), signed only: destination, source, the one format. -/
  | neg (rd ra : Reg) (fa : Fmt)
  /-- MUL (R151). -/
  | mul (rd ra rb : Reg) (sg : Sign) (fa fb : Fmt)
  /-- DIV (R161): destination, dividend, divisor, signedness, dividend format, divisor format. -/
  | div (rd ra rb : Reg) (sg : Sign) (fa fb : Fmt)
  /-- CMP (R171): left source, right source, signedness, the one format. -/
  | cmp (ra rb : Reg) (sg : Sign) (fa : Fmt)
deriving DecidableEq, Repr

/-- The pseudo-instruction ASSIGN is CVT.TRN (R64). -/
abbrev Instr.assign (rd ra : Reg) (sg : Sign) (fa fb : Fmt) : Instr := .cvtTrn rd ra sg fa fb

/-- The pseudo-instruction ROUND is CVT.RND (R64). -/
abbrev Instr.round (rd ra : Reg) (sg : Sign) (fa fb : Fmt) : Instr := .cvtRnd rd ra sg fa fb

/-- The pseudo-instruction MOV is CVT.TRN with equal formats (R64). -/
abbrev Instr.mov (rd ra : Reg) (sg : Sign) (f : Fmt) : Instr := .cvtTrn rd ra sg f f

/-- The pseudo-instruction CLR is PUT.TRN.U under `<1,0>`, to be issued with `din = 0` (R64). -/
abbrev Instr.clr (rd : Reg) : Instr := .putTrn rd .unsigned ⟨1, 0⟩

end Sys2Proof
end

