-- ==== Sys2Proof/WellFormed.lean ====
section
/-! DEFINITION. The width conditions a command must satisfy (spec/30_encoding.md R57, R60): the document's
compile-time constraints. A command that fails its condition spells no instruction (R61). -/

namespace Sys2Proof

/-- `valid(I,F)`: `I <= 64`, `I + F >= 1` and `F <= 63` (R57, R101; a 6-bit field always meets the last). -/
abbrev Fmt.Valid (f : Fmt) : Prop := f.int ≤ 64 ∧ 1 ≤ f.int + f.frac ∧ f.frac ≤ 63

/-- The condition of the instruction's row of R60. -/
def Instr.wellFormed : Instr → Bool
  | .putTrn _ _ fb => decide fb.Valid
  | .putRnd _ _ fb => decide fb.Valid
  | .putRtz _ _ fb => decide fb.Valid
  | .get _ => true
  | .cvtTrn _ _ _ fa fb => decide (fa.Valid ∧ fb.Valid)
  | .cvtRnd _ _ _ fa fb => decide (fa.Valid ∧ fb.Valid)
  | .cvtRtz _ _ _ fa fb => decide (fa.Valid ∧ fb.Valid)
  | .sat _ _ fa fb => decide (fa.Valid ∧ fb.Valid ∧ fb.int ≤ fa.int)
  | .tovf _ _ fa it => decide (fa.Valid ∧ Fmt.Valid ⟨it, fa.frac⟩)
  | .add _ _ _ _ fa fb => decide (fa.Valid ∧ fb.Valid ∧ max fa.int fb.int ≤ 63)
  | .sub _ _ _ _ fa fb => decide (fa.Valid ∧ fb.Valid ∧ max fa.int fb.int ≤ 63)
  | .neg _ _ fa => decide fa.Valid
  | .mul _ _ _ _ fa fb => decide (fa.Valid ∧ fb.Valid ∧ fa.int + fb.int ≤ 64 ∧ fa.frac + fb.frac ≤ 63)
  | .div _ _ _ _ fa fb => decide (fa.Valid ∧ fb.Valid ∧ fb.frac ≤ fa.frac ∧ fa.int + fb.frac ≤ 64)
  | .cmp _ _ _ fa => decide fa.Valid

end Sys2Proof
end

