-- ==== Sys2Proof/Decode.lean ====
section
/-! DEFINITION. The 64-bit command word: its fields, the decoder, total on every word and rejecting by
name, and the encoder (spec/30_encoding.md R50 to R62). -/

namespace Sys2Proof

/-- The fields of the single command format (R51). -/
structure Fields where
  op : BitVec 6
  rd : BitVec 3
  ra : BitVec 3
  rb : BitVec 3
  s : BitVec 1
  rm : BitVec 2
  ia : BitVec 8
  fa : BitVec 6
  ib : BitVec 8
  fb : BitVec 6
  zero : BitVec 18
deriving DecidableEq, Repr

/-- The fields of a command word, at the bit positions of R51. -/
def Fields.ofCommand (c : Command) : Fields where
  op := c.extractLsb' 58 6
  rd := c.extractLsb' 55 3
  ra := c.extractLsb' 52 3
  rb := c.extractLsb' 49 3
  s := c.extractLsb' 48 1
  rm := c.extractLsb' 46 2
  ia := c.extractLsb' 38 8
  fa := c.extractLsb' 32 6
  ib := c.extractLsb' 24 8
  fb := c.extractLsb' 18 6
  zero := c.extractLsb' 0 18

/-- The command word with the given fields, by the sum R51 writes out. -/
def Fields.toCommand (f : Fields) : Command :=
  BitVec.ofNat 64 (f.op.toNat * 2 ^ 58 + f.rd.toNat * 2 ^ 55 + f.ra.toNat * 2 ^ 52 + f.rb.toNat * 2 ^ 49
    + f.s.toNat * 2 ^ 48 + f.rm.toNat * 2 ^ 46 + f.ia.toNat * 2 ^ 38 + f.fa.toNat * 2 ^ 32
    + f.ib.toNat * 2 ^ 24 + f.fb.toNat * 2 ^ 18 + f.zero.toNat)

/-- Why a word matches no row of the opcode table (R61, R62 steps 1 to 3). -/
inductive DecodeError where
  /-- `OP` selects no instruction (R58). -/
  | unassignedOpcode (op : BitVec 6)
  /-- `RM = 3` in PUT or CVT (R55). -/
  | reservedRounding
  /-- `RM` is not zero outside PUT and CVT (R55). -/
  | roundingNotAllowed
  /-- A field the command does not use, or `ZERO`, is not zero (R59). -/
  | unusedFieldSet
  /-- `S = 0` in SAT or NEG (R56). -/
  | signedOnly
deriving DecidableEq, Repr

/-- IntBits of a field: 8-bit two's complement (R53). -/
def intBits (field : BitVec 8) : Int := field.toInt

/-- The 8-bit two's-complement field of an IntBits (R53). -/
def intField (i : Int) : BitVec 8 := BitVec.ofInt 8 i

/-- FracBits of a field: 6-bit unsigned (R53). -/
def fracBits (field : BitVec 6) : Nat := field.toNat

/-- The 6-bit field of a FracBits (R53). -/
def fracField (n : Nat) : BitVec 6 := BitVec.ofNat 6 n

/-- The register a 3-bit field names; every value names one (R54). -/
def regOf (field : BitVec 3) : Reg := ⟨field.toNat, field.isLt⟩

/-- The 3-bit field of a register number (R54). -/
def regField (r : Reg) : BitVec 3 := BitVec.ofFin r

/-- The signedness a field holds: 1 signed, 0 unsigned (R51). -/
def signOf (field : BitVec 1) : Sign := if field = 1 then .signed else .unsigned

/-- The `S` field of a signedness (R51). -/
def signField : Sign → BitVec 1
  | .signed => 1
  | .unsigned => 0

/-- Format A of a command, `<IA,FA>` (R52). -/
def Fields.fmtA (f : Fields) : Fmt := ⟨intBits f.ia, fracBits f.fa⟩

/-- Format B of a command, `<IB,FB>` (R52). -/
def Fields.fmtB (f : Fields) : Fmt := ⟨intBits f.ib, fracBits f.fb⟩

/-- The must-be-zero check of a row (R59, R62 step 3). -/
def unusedClear (clear : Bool) (i : Instr) : Except DecodeError Instr :=
  if clear then .ok i else .error .unusedFieldSet

/-- `RM` must be zero outside PUT and CVT (R55, R62 step 2). -/
def noRounding (f : Fields) (rest : Except DecodeError Instr) : Except DecodeError Instr :=
  if f.rm = 0 then rest else .error .roundingNotAllowed

/-- `S` must be 1 in SAT and NEG (R56, R59). -/
def needSigned (f : Fields) (rest : Except DecodeError Instr) : Except DecodeError Instr :=
  if f.s = 1 then rest else .error .signedOnly

/-- The row of PUT or CVT that `RM` selects (R55, R58). -/
def byRounding (f : Fields) (trn rnd rtz : Except DecodeError Instr) : Except DecodeError Instr :=
  if f.rm = 0 then trn else if f.rm = 1 then rnd else if f.rm = 2 then rtz else .error .reservedRounding

/-- R59, row PUT: `RA`, `RB`, `IA`, `FA` and `ZERO` must be zero. -/
def Fields.putClear (f : Fields) : Bool := f.ra == 0 && f.rb == 0 && f.ia == 0 && f.fa == 0 && f.zero == 0

/-- R59, row GET: all but `RA` (and `OP`, `RM`) must be zero. -/
def Fields.getClear (f : Fields) : Bool :=
  f.rd == 0 && f.rb == 0 && f.s == 0 && f.ia == 0 && f.fa == 0 && f.ib == 0 && f.fb == 0 && f.zero == 0

/-- R59, rows CVT and SAT: `RB` and `ZERO` must be zero. -/
def Fields.cvtClear (f : Fields) : Bool := f.rb == 0 && f.zero == 0

/-- R59, row TOVF: `RD`, `RB`, `FB` and `ZERO` must be zero. -/
def Fields.tovfClear (f : Fields) : Bool := f.rd == 0 && f.rb == 0 && f.fb == 0 && f.zero == 0

/-- R59, rows ADD, SUB, MUL, DIV: `ZERO` must be zero. -/
def Fields.binaryClear (f : Fields) : Bool := f.zero == 0

/-- R59, row NEG: `RB`, `IB`, `FB` and `ZERO` must be zero. -/
def Fields.negClear (f : Fields) : Bool := f.rb == 0 && f.ib == 0 && f.fb == 0 && f.zero == 0

/-- R59, row CMP: `RD`, `IB`, `FB` and `ZERO` must be zero. -/
def Fields.cmpClear (f : Fields) : Bool := f.rd == 0 && f.ib == 0 && f.fb == 0 && f.zero == 0

/-- The row of the opcode table that the fields select, with its operands (R58, R59; R62 steps 1 to 3). -/
def decodeFields (f : Fields) : Except DecodeError Instr :=
  let rd := regOf f.rd
  let ra := regOf f.ra
  let rb := regOf f.rb
  let sg := signOf f.s
  match f.op.toNat with
  | 0x01 => byRounding f
      (unusedClear f.putClear (.putTrn rd sg f.fmtB))
      (unusedClear f.putClear (.putRnd rd sg f.fmtB))
      (unusedClear f.putClear (.putRtz rd sg f.fmtB))
  | 0x02 => noRounding f (unusedClear f.getClear (.get ra))
  | 0x03 => byRounding f
      (unusedClear f.cvtClear (.cvtTrn rd ra sg f.fmtA f.fmtB))
      (unusedClear f.cvtClear (.cvtRnd rd ra sg f.fmtA f.fmtB))
      (unusedClear f.cvtClear (.cvtRtz rd ra sg f.fmtA f.fmtB))
  | 0x04 => noRounding f (needSigned f (unusedClear f.cvtClear (.sat rd ra f.fmtA f.fmtB)))
  | 0x05 => noRounding f (unusedClear f.tovfClear (.tovf ra sg f.fmtA (intBits f.ib)))
  | 0x08 => noRounding f (unusedClear f.binaryClear (.add rd ra rb sg f.fmtA f.fmtB))
  | 0x09 => noRounding f (unusedClear f.binaryClear (.sub rd ra rb sg f.fmtA f.fmtB))
  | 0x0A => noRounding f (needSigned f (unusedClear f.negClear (.neg rd ra f.fmtA)))
  | 0x0B => noRounding f (unusedClear f.binaryClear (.mul rd ra rb sg f.fmtA f.fmtB))
  | 0x0C => noRounding f (unusedClear f.binaryClear (.div rd ra rb sg f.fmtA f.fmtB))
  | 0x0D => noRounding f (unusedClear f.cmpClear (.cmp ra rb sg f.fmtA))
  | _ => .error (.unassignedOpcode f.op)

/-- The decoder: total on every 64-bit word. It answers the row and its operands; the width condition of
that row (R60, R62 step 4) is `Instr.wellFormed`, which every meaning checks first and answers with `ILL`.
DEDUCED, safe (log 8): the four checks raise the same fault, "so their order cannot be observed" (R62). -/
def decode (c : Command) : Except DecodeError Instr := decodeFields (Fields.ofCommand c)

/-- The instruction a word spells, if it spells one: it matches a row and meets that row's width condition (R61). -/
def spells (c : Command) : Option Instr :=
  match decode c with
  | .ok i => if i.wellFormed then some i else none
  | .error _ => none

/-- The word with every field zero, on which the encoder of a row writes the fields the row uses (R59). -/
def Fields.clear : Fields :=
  { op := 0, rd := 0, ra := 0, rb := 0, s := 0, rm := 0, ia := 0, fa := 0, ib := 0, fb := 0, zero := 0 }

/-- These fields with format A set (R52). -/
def Fields.withA (f : Fields) (fa : Fmt) : Fields := { f with ia := intField fa.int, fa := fracField fa.frac }

/-- These fields with format B set (R52). -/
def Fields.withB (f : Fields) (fb : Fmt) : Fields := { f with ib := intField fb.int, fb := fracField fb.frac }

/-- The fields of PUT under rounding mode `rm` (R58, R59). -/
def putFields (rm : BitVec 2) (rd : Reg) (sg : Sign) (fb : Fmt) : Fields :=
  { Fields.clear.withB fb with op := 0x01, rd := regField rd, s := signField sg, rm := rm }

/-- The fields of CVT under rounding mode `rm` (R58, R59). -/
def cvtFields (rm : BitVec 2) (rd ra : Reg) (sg : Sign) (fa fb : Fmt) : Fields :=
  { (Fields.clear.withA fa).withB fb with
    op := 0x03, rd := regField rd, ra := regField ra, s := signField sg, rm := rm }

/-- The fields of ADD, SUB, MUL and DIV, which differ in `OP` alone (R58, R59). -/
def binaryFields (op : BitVec 6) (rd ra rb : Reg) (sg : Sign) (fa fb : Fmt) : Fields :=
  { (Fields.clear.withA fa).withB fb with
    op := op, rd := regField rd, ra := regField ra, rb := regField rb, s := signField sg }

/-- The fields of an instruction (R58, R59). -/
def encodeFields : Instr → Fields
  | .putTrn rd sg fb => putFields 0 rd sg fb
  | .putRnd rd sg fb => putFields 1 rd sg fb
  | .putRtz rd sg fb => putFields 2 rd sg fb
  | .get ra => { Fields.clear with op := 0x02, ra := regField ra }
  | .cvtTrn rd ra sg fa fb => cvtFields 0 rd ra sg fa fb
  | .cvtRnd rd ra sg fa fb => cvtFields 1 rd ra sg fa fb
  | .cvtRtz rd ra sg fa fb => cvtFields 2 rd ra sg fa fb
  | .sat rd ra fa fb =>
    { (Fields.clear.withA fa).withB fb with op := 0x04, rd := regField rd, ra := regField ra, s := 1 }
  | .tovf ra sg fa it =>
    { Fields.clear.withA fa with op := 0x05, ra := regField ra, s := signField sg, ib := intField it }
  | .add rd ra rb sg fa fb => binaryFields 0x08 rd ra rb sg fa fb
  | .sub rd ra rb sg fa fb => binaryFields 0x09 rd ra rb sg fa fb
  | .neg rd ra fa => { Fields.clear.withA fa with op := 0x0A, rd := regField rd, ra := regField ra, s := 1 }
  | .mul rd ra rb sg fa fb => binaryFields 0x0B rd ra rb sg fa fb
  | .div rd ra rb sg fa fb => binaryFields 0x0C rd ra rb sg fa fb
  | .cmp ra rb sg fa =>
    { Fields.clear.withA fa with op := 0x0D, ra := regField ra, rb := regField rb, s := signField sg }

/-- The command word of an instruction (R51, R58, R59). -/
def encode (i : Instr) : Command := (encodeFields i).toCommand

/-- One row of the opcode map: a command `c` selects it when `c AND mask = match` (R58). -/
structure OpcodeRow where
  mnemonic : String
  pattern : Command
  mask : Command
deriving DecidableEq, Repr

/-- The `match` and `mask` columns of R58, written out as the table has them. The decoder does not use
them; they are a second reading of the encoding, to be held against it. -/
def opcodeRows : List OpcodeRow :=
  [ ⟨"PUT.TRN", 0x0400000000000000, 0xFC7EFFFF0003FFFF⟩,
    ⟨"PUT.RND", 0x0400400000000000, 0xFC7EFFFF0003FFFF⟩,
    ⟨"PUT.RTZ", 0x0400800000000000, 0xFC7EFFFF0003FFFF⟩,
    ⟨"GET", 0x0800000000000000, 0xFF8FFFFFFFFFFFFF⟩,
    ⟨"CVT.TRN", 0x0C00000000000000, 0xFC0EC0000003FFFF⟩,
    ⟨"CVT.RND", 0x0C00400000000000, 0xFC0EC0000003FFFF⟩,
    ⟨"CVT.RTZ", 0x0C00800000000000, 0xFC0EC0000003FFFF⟩,
    ⟨"SAT", 0x1001000000000000, 0xFC0FC0000003FFFF⟩,
    ⟨"TOVF", 0x1400000000000000, 0xFF8EC00000FFFFFF⟩,
    ⟨"ADD", 0x2000000000000000, 0xFC00C0000003FFFF⟩,
    ⟨"SUB", 0x2400000000000000, 0xFC00C0000003FFFF⟩,
    ⟨"NEG", 0x2801000000000000, 0xFC0FC000FFFFFFFF⟩,
    ⟨"MUL", 0x2C00000000000000, 0xFC00C0000003FFFF⟩,
    ⟨"DIV", 0x3000000000000000, 0xFC00C0000003FFFF⟩,
    ⟨"CMP", 0x3400000000000000, 0xFF80C000FFFFFFFF⟩ ]

/-- The command `c` selects the row (R58). -/
def OpcodeRow.hit (row : OpcodeRow) (c : Command) : Bool := c &&& row.mask == row.pattern

/-- The mnemonic of an instruction, as the opcode table spells it. -/
def Instr.mnemonic : Instr → String
  | .putTrn _ _ _ => "PUT.TRN"
  | .putRnd _ _ _ => "PUT.RND"
  | .putRtz _ _ _ => "PUT.RTZ"
  | .get _ => "GET"
  | .cvtTrn _ _ _ _ _ => "CVT.TRN"
  | .cvtRnd _ _ _ _ _ => "CVT.RND"
  | .cvtRtz _ _ _ _ _ => "CVT.RTZ"
  | .sat _ _ _ _ => "SAT"
  | .tovf _ _ _ _ => "TOVF"
  | .add _ _ _ _ _ _ => "ADD"
  | .sub _ _ _ _ _ _ => "SUB"
  | .neg _ _ _ => "NEG"
  | .mul _ _ _ _ _ _ => "MUL"
  | .div _ _ _ _ _ _ => "DIV"
  | .cmp _ _ _ _ => "CMP"

/-- The bits of an instruction as spec/opcode_table.json numbers them are the bits of the one 64-bit
command word, bit 0 its least significant (R51); the word has no bytes and no byte order (R41). Bits above
the row's are zero. DEDUCED, safe (log 13). -/
def tableCommand (nbits w : Nat) : Command := BitVec.ofNat 64 (w % 2 ^ nbits)

/-- The instruction the decoder reads from an opcode-table word. -/
def decodeTableWord (nbits w : Nat) : Option Instr := (decode (tableCommand nbits w)).toOption

end Sys2Proof
end

