-- ==== Sys2Proof/Machine/WideWord.lean ====
section
/-! DEFINITION. The WideWord substrate: the 128-bit primitives every command is built from, and beside each
the limb-by-limb reading the spec gives of it (spec/40_wideword.md R80 to R90). The commands use the word
reading; the limb readings are there to be proved equal. -/

namespace Sys2Proof.Machine

/-- Limb 0, `w.lo = w[63:0]` (R6, R80). -/
def lo (w : Word) : Limb := w.extractLsb' 0 64

/-- Limb 1, `w.hi = w[127:64]` (R6, R80). -/
def hi (w : Word) : Limb := w.extractLsb' 64 64

/-- The word with the given limbs: `u(w) = u(hi) * 2^64 + u(lo)` (R80). -/
def ofLimbs (h l : Limb) : Word := BitVec.ofNat 128 (h.toNat * 2 ^ 64 + l.toNat)

/-- `u(w)`: the unsigned reading (R7). -/
def uval (w : Word) : Nat := w.toNat

/-- `s(w)`: the two's-complement reading (R7). -/
def sval (w : Word) : Int := w.toInt

/-- The reading a signedness selects, in units of `2^-64`: the value of the word is this over `2^64` (R7, R100). -/
def value (w : Word) : Sign → Int
  | .signed => sval w
  | .unsigned => uval w

/-- `w << n` (R81); free outside `0 <= n < 128` (R88, log 6). -/
def shl (w : Word) (n : Nat) : Word := if n < 128 then w <<< n else Config.undefinedShl w n

/-- `w >>u n`, logical (R82). -/
def shrU (w : Word) (n : Nat) : Word := if n < 128 then w >>> n else Config.undefinedShrU w n

/-- `w >>s n`, arithmetic (R82). -/
def shrS (w : Word) (n : Nat) : Word := if n < 128 then w.sshiftRight n else Config.undefinedShrS w n

/-- The right shift a signedness selects: `>>s` when `S = 1`, `>>u` when `S = 0` (R82). -/
def shr (w : Word) (n : Nat) : Sign → Word
  | .signed => shrS w n
  | .unsigned => shrU w n

/-- `a + b`, modulo `2^128` (R83). -/
def wadd (a b : Word) : Word := a + b

/-- `a - b`, modulo `2^128` (R84). -/
def wsub (a b : Word) : Word := a - b

/-- `-a = 0 - a` (R84). -/
def wneg (a : Word) : Word := wsub 0 a

/-- `a <u b` (R86). -/
def wlt (a b : Word) : Bool := decide (uval a < uval b)

/-- `a <=u b` (R86). -/
def wle (a b : Word) : Bool := wlt a b || a == b

/-- `a >u b` (R86). -/
def wgt (a b : Word) : Bool := wlt b a

/-- `a >=u b` (R86). -/
def wge (a b : Word) : Bool := !wlt a b

/-- `bit(n)`: the word `2^n` (R87). -/
def bit (n : Nat) : Word := if n < 128 then BitVec.ofNat 128 (2 ^ n) else Config.undefinedBit n

/-- `lowmask(n)`: the word `2^n - 1` (R87). -/
def lowmask (n : Nat) : Word := if n < 128 then BitVec.ofNat 128 (2 ^ n - 1) else Config.undefinedLowmask n

/-- `a * b`: the low 128 bits of the product (R89). -/
def wmul (a b : Word) : Word := a * b

/-- `a / b`, truncating toward zero; free for `b = 0` (R90, log 7). -/
def wdiv (a b : Word) : Sign → Word
  | .signed => if b = 0 then Config.undefinedDivS a else BitVec.ofInt 128 ((sval a).tdiv (sval b))
  | .unsigned => if b = 0 then Config.undefinedDivU a else BitVec.ofNat 128 (uval a / uval b)

/-- The left shift in limbs (R81). -/
def shlLimbs (w : Word) (n : Nat) : Word :=
  if n = 0 then w
  else if n < 64 then ofLimbs ((hi w <<< n) ||| (lo w >>> (64 - n))) (lo w <<< n)
  else if n < 128 then ofLimbs (lo w <<< (n - 64)) 0
  else Config.undefinedShl w n

/-- The logical right shift in limbs (R82). -/
def shrULimbs (w : Word) (n : Nat) : Word :=
  if n = 0 then w
  else if n < 64 then ofLimbs (hi w >>> n) ((lo w >>> n) ||| (hi w <<< (64 - n)))
  else if n < 128 then ofLimbs 0 (hi w >>> (n - 64))
  else Config.undefinedShrU w n

/-- The arithmetic right shift in limbs (R82). -/
def shrSLimbs (w : Word) (n : Nat) : Word :=
  if n = 0 then w
  else if n < 64 then ofLimbs ((hi w).sshiftRight n) ((lo w >>> n) ||| (hi w <<< (64 - n)))
  else if n < 128 then
    ofLimbs (if (hi w).msb then BitVec.allOnes 64 else 0) ((hi w).sshiftRight (n - 64))
  else Config.undefinedShrS w n

/-- Addition in limbs, the carry found by an unsigned comparison of the low-limb result with an operand (R83). -/
def addLimbs (a b : Word) : Word :=
  let l := lo a + lo b
  let carry : Limb := if l.toNat < (lo a).toNat then 1 else 0
  ofLimbs (hi a + hi b + carry) l

/-- Subtraction in limbs, the borrow found by an unsigned comparison (R84). -/
def subLimbs (a b : Word) : Word :=
  let l := lo a - lo b
  let borrow : Limb := if (lo a).toNat < l.toNat then 1 else 0
  ofLimbs (hi a - hi b - borrow) l

/-- The order in limbs: high limb first, then the low limb, both unsigned (R86). -/
def wltLimbs (a b : Word) : Bool :=
  decide ((hi a).toNat < (hi b).toNat) || (hi a == hi b && decide ((lo a).toNat < (lo b).toNat))

/-- Equality in limbs: both limbs are equal (R86). -/
def weqLimbs (a b : Word) : Bool := hi a == hi b && lo a == lo b

/-- The 64-bit multiply of two limbs, modulo `2^64` (R89). -/
def limbMul (x y : Limb) : Limb := x * y

/-- The widening multiply of two limbs to a full 128-bit product, signed or unsigned (R89). -/
def wideMul (x y : Limb) : Sign → Word
  | .signed => BitVec.ofInt 128 (x.toInt * y.toInt)
  | .unsigned => BitVec.ofNat 128 (x.toNat * y.toNat)

/-- The word multiply in limbs: the high-by-high product contributes nothing below bit 128 (R89). -/
def mulLimbs (a b : Word) : Word :=
  let p0 := wideMul (lo a) (lo b) .unsigned
  ofLimbs (hi p0 + lo (wideMul (lo a) (hi b) .unsigned) + lo (wideMul (hi a) (lo b) .unsigned)) (lo p0)

end Sys2Proof.Machine
end

