-- ==== Sys2Proof/Machine/Format.lean ====
section
/-! DEFINITION. The format logic: masking, sign extension, canonical words, overflow test, rounding and
saturation (spec/41_format_logic.md R100 to R111). -/

namespace Sys2Proof.Machine

/-- `p(I) = 63 + I`: the top declared bit, the sign position of a signed format (R102). For `I < -63`, which no
valid format has, the amount is negative and R88 leaves its use undefined; here it is 0. DESIGN CHOICE (log 20). -/
def topBit (i : Int) : Nat := (63 + i).toNat

/-- `64 + I`: the first bit above the declared field (R105). For `I < -64`, which no valid format has, the
amount is negative and R88 leaves its use undefined; here it is 0. DESIGN CHOICE (log 20). -/
def aboveTop (i : Int) : Nat := (64 + i).toNat

/-- `l(F) = 64 - F`: the lowest declared bit (R102). For `F > 64`, which no FracBits field holds, the amount is
negative and R88 leaves its use undefined; here it is 0. DESIGN CHOICE (log 20). -/
def lowBit (frac : Nat) : Nat := 64 - frac

/-- `fracmask(w, F)`: zero all bits below `64 - F` (R104). -/
def fracmask (w : Word) (frac : Nat) : Word := w &&& ~~~ lowmask (lowBit frac)

/-- `ext(w, I, S)`: sign extension, or mask to width (R105). -/
def ext (w : Word) (i : Int) (sg : Sign) : Word :=
  if i = 64 then w
  else if sg = .signed ∧ w.getLsbD (topBit i) = true then w ||| ~~~ lowmask (aboveTop i)
  else w &&& lowmask (aboveTop i)

/-- `norm(w, I, F, S)` (R106). -/
def norm (w : Word) (f : Fmt) (sg : Sign) : Word := ext (fracmask w f.frac) f.int sg

/-- The word is canonical under the format: `norm` leaves it unchanged (R107). -/
def canonical (w : Word) (f : Fmt) (sg : Sign) : Bool := norm w f sg == w

/-- `testovf(w, I, S)`: the word holds more than `I` integer bits can (R108). For a signed format the field
`w[127 : 63+I]` is neither all zeros nor all ones; for an unsigned one `w[127 : 64+I]` is not zero. The field has `65 - I` bits,
which is `128 - p(I)`; for `I > 65`, which no valid format has, that width is negative and is 0 here. DESIGN
CHOICE (log 20). -/
def testovf (w : Word) (i : Int) : Sign → Bool
  | .signed =>
    let t := shrU w (topBit i)
    !(t == 0 || t == lowmask (128 - topBit i))
  | .unsigned => if i = 64 then false else !(shrU w (aboveTop i) == 0)

/-- The rounding multiplexer: what the word becomes before the mask of the target FracBits (R109, R110). For
`F > 63`, which no FracBits field holds, `63 - F` is negative and is 0 here. DESIGN CHOICE (log 20). -/
def adjust (w : Word) (frac : Nat) (rm : Rounding) (sg : Sign) : Word :=
  match rm with
  | .trn => w
  | .rnd => wadd w (bit (63 - frac))
  | .rtz => if sg = .signed ∧ w.getLsbD 127 = true then wadd w (lowmask (lowBit frac)) else w

/-- `cvt(w, I, F, S, RM) = norm(adjust(w, F, RM, S), I, F, S)` (R110). -/
def convert (w : Word) (f : Fmt) (rm : Rounding) (sg : Sign) : Word := norm (adjust w f.frac rm sg) f sg

/-- `sat(w, It, Ft)`, signed only (R111). -/
def saturate (w : Word) (f : Fmt) : Word :=
  let r :=
    if testovf w f.int .signed then
      if w.getLsbD 127 then ~~~ lowmask (topBit f.int) else lowmask (topBit f.int)
    else w
  fracmask r f.frac

end Sys2Proof.Machine
end

