-- ==== Sys2Proof/Machine/State.lean ====
section
/-! DEFINITION. The state of the Fixed-point ALU (spec/10_state.md R20 to R32), its faults, and the state
after reset (spec/70_reset_and_hazards.md R211). -/

namespace Sys2Proof.Machine

/-- `CAUSE` (R26, R190): no fault, or the fault that stopped the ALU. Its 2-bit code is `Cause.code`. -/
inductive Cause where
  /-- Code 0: no fault has occurred since reset. -/
  | none
  /-- Code 1, `ILL`: the issued word spells no instruction (R191). -/
  | ill
  /-- Code 2, `NCN`: a source register is not canonical under the format it is read with (R192). -/
  | ncn
  /-- Code 3, `DBZ`: the divisor of DIV is zero (R193). -/
  | dbz
deriving DecidableEq, Repr

/-- One action of the host (R11, R210): what happens at the ALU's inputs in one step. -/
inductive HostEvent where
  /-- The host issues a command, with the value it drives on the data-in bus (R11, R50). -/
  | issue (cmd : Command) (din : Word)
  /-- The host asserts reset between commands (R210). -/
  | reset
  /-- The host asserts reset while the command is being executed: "that command then has no effect" (R210). -/
  | issueCutByReset (cmd : Command) (din : Word)
deriving DecidableEq, Repr

/-- A stop of the model itself. There is none: every fault of this hardware has an entry the spec describes
(R195) and a faulted ALU goes on accepting commands (R196), so `ILL`, `NCN` and `DBZ` are values of `CAUSE`
in a next state, and no constructor stands here (log 5; safe: no step of the hardware is cut short). -/
inductive Fault where
deriving DecidableEq, Repr

/-- An instruction without a meaning. -/
inductive Refusal where
  /-- Raised by `exec` for an instruction whose meaning has not been written; no arm raises it. Safe: nothing
  is claimed of such an instruction. -/
  | notModelled (mnemonic : String)
deriving DecidableEq, Repr

/-- The architectural state: R20's fields, "exactly these fields" and nothing else. -/
structure Alu where
  /-- `W[0]` .. `W[7]`, the value registers (R21). -/
  w : Vector Word 8
  /-- `STATUS.EQ`, bit 0 of STATUS (R25). -/
  flagEq : Bool
  /-- `STATUS.LT`, bit 1 of STATUS (R25). -/
  flagLt : Bool
  /-- `STATUS.OVF`, bit 2 of STATUS (R25). -/
  flagOvf : Bool
  /-- `CAUSE` (R26). -/
  cause : Cause
  /-- `FCMD`: the command that faulted (R27). -/
  fcmd : Command
  /-- `DOUT`: the last word a GET copied (R28). -/
  dout : Word
deriving DecidableEq, Repr

/-- The inputs of a run: "The command list and the `din` values are inputs of a run, not state" (R20, R11).
The model's own (log 1). -/
structure Inputs where
  /-- The word on the command port in the present step (R195, R202). -/
  cmd : Command
  /-- The word on the data-in bus in the present step (R40, R50). -/
  din : Word
  /-- The host's actions still to come, oldest first (R11, R45). -/
  feed : List HostEvent
deriving DecidableEq, Repr

/-- What the step function steps: R20's state, which is `State.toAlu`, with the inputs of the run beside it,
because the host's interface gives a step no other argument (log 1). R11's own shape is `aluStep`. -/
structure State extends Alu, Inputs
deriving DecidableEq, Repr

/-- The reset state of the ALU: the table of R211. -/
def Alu.reset : Alu where
  w := Vector.replicate 8 0
  flagEq := false
  flagLt := false
  flagOvf := false
  cause := .none
  fcmd := 0
  dout := 0

/-- The machine after reset (R211). The inputs are no state and have no reset value in the spec: nothing on
the ports and nothing to come. DESIGN CHOICE (log 2). -/
def State.reset : State where
  toAlu := Alu.reset
  cmd := 0
  din := 0
  feed := []

/-- What a step answers. -/
abbrev Outcome := Host.Outcome State Fault Refusal

end Sys2Proof.Machine
end

