-- ==== Sys2Proof/Machine/Operands.lean ====
section
/-! DEFINITION. Operands: reading and writing value registers, the operand check, stored integers, and the
result formats of word growth (spec/10_state.md R21; 42_convert.md R120; 43_addsub.md R140; 44_mul.md R150,
R151; 45_div.md R160, R161). -/

namespace Sys2Proof.Machine

/-- `W[r]` (R8, R21). -/
def readW (s : State) (r : Reg) : Word := s.w[r]

/-- `W[r] <- v` (R8, R21): a register is written as a whole word. -/
def writeW (s : State) (r : Reg) (v : Word) : State := { s with w := s.w.set r v }

/-- `DOUT <- v` (R28, R124). -/
def writeDout (s : State) (v : Word) : State := { s with dout := v }

/-- `need(w, I, F, S)`: the operand, or `NCN` when it is not canonical under the format (R120, R192). -/
def need (w : Word) (f : Fmt) (sg : Sign) : Except Cause Word := if canonical w f sg then .ok w else .error .ncn

/-- `DBZ` when the divisor word is zero (R161, R193). -/
def needDivisor (y : Word) : Except Cause Word := if y = 0 then .error .dbz else .ok y

/-- The stored integer of an operand of `frac` FracBits: the word shifted right by `64 - F` (R102, R151, R161). -/
def stored (w : Word) (frac : Nat) (sg : Sign) : Word := shr w (lowBit frac) sg

/-- The result format of ADD and SUB (R140). -/
def addFmt (fa fb : Fmt) : Fmt := ⟨max fa.int fb.int + 1, max fa.frac fb.frac⟩

/-- The result format of MUL (R150). -/
def mulFmt (fa fb : Fmt) : Fmt := ⟨fa.int + fb.int, fa.frac + fb.frac⟩

/-- The result format of DIV (R160). A well-formed DIV has `FA >= FB`; for any other the spec gives no FracBits,
and here they are 0. DESIGN CHOICE (log 20). -/
def divFmt (fa fb : Fmt) : Fmt := ⟨fa.int + fb.frac, fa.frac - fb.frac⟩

end Sys2Proof.Machine
end

