-- ==== Sys2Proof/Machine/Flags.lean ====
section
/-! DEFINITION. The flags of STATUS: who writes them and what the host reads from them
(spec/10_state.md R25; 42_convert.md R131; 46_compare.md R171, R172). -/

namespace Sys2Proof.Machine

/-- CMP writes `EQ` and `LT` from two operand words, and leaves `OVF` (R171). -/
def writeCompare (s : State) (x y : Word) : State := { s with flagEq := x == y, flagLt := wlt x y }

/-- TOVF writes `OVF`, and leaves `EQ` and `LT` (R131). -/
def writeOvf (s : State) (b : Bool) : State := { s with flagOvf := b }

/-- The six relations of R172, each read from the two flags after one CMP. -/
inductive Relation where
  | eq
  | ne
  | lt
  | le
  | gt
  | ge
deriving DecidableEq, Repr

/-- What the host reads from the flags for a relation (R172). -/
def readRelation (s : State) : Relation → Bool
  | .eq => s.flagEq
  | .ne => !s.flagEq
  | .lt => s.flagLt
  | .le => s.flagLt || s.flagEq
  | .gt => !(s.flagLt || s.flagEq)
  | .ge => !s.flagLt

end Sys2Proof.Machine
end

