-- ==== Sys2Proof/Machine/Ops.lean ====
section
/-! DEFINITION. The shared operations of a step: fault entry, running a command, the host's inputs, reset,
and the outputs (spec/60_exceptions.md R190 to R202; 70_reset_and_hazards.md R210, R211). -/

namespace Sys2Proof.Machine

/-- The 2-bit `cause` output (R26, R190). -/
def Cause.code : Cause → BitVec 2
  | .none => 0
  | .ill => 1
  | .ncn => 2
  | .dbz => 3

/-- The 3-bit `status` output: bit 0 `EQ`, bit 1 `LT`, bit 2 `OVF` (R25). -/
def statusOut (s : State) : BitVec 3 :=
  BitVec.ofBool s.flagOvf ++ BitVec.ofBool s.flagLt ++ BitVec.ofBool s.flagEq

/-- The `cause` output (R26, R202). -/
def causeOut (s : State) : BitVec 2 := s.cause.code

/-- The `fault` output: 1 exactly when `CAUSE` is not 0 (R198). -/
def faultOut (s : State) : BitVec 1 := if s.cause = .none then 0 else 1

/-- The `fcmd` output (R27, R202). -/
def fcmdOut (s : State) : Command := s.fcmd

/-- The `dout` output (R28, R202). -/
def doutOut (s : State) : Word := s.dout

/-- Fault entry (R195): `CAUSE` takes the code and `FCMD` the command word on the port; nothing else changes.
`CAUSE` is written once and holds its value until reset (R26), so an ALU already faulted is left alone (R196). -/
def raise (c : Cause) (s : State) : State :=
  if s.cause = .none then { s with cause := c, fcmd := s.cmd } else s

/-- The whole of executing one command. A faulted ALU ignores it (R196); a command that fails its width
condition raises `ILL` (R60, R191); else the command's own body runs, and a raise in it ends the step with
no write other than the fault record (R9). The order is R194's. -/
def runCommand (i : Instr) (s : State) (body : Except Cause State) : Outcome :=
  if s.cause ≠ .none then .next s
  else if i.wellFormed then
    match body with
    | .ok t => .next t
    | .error c => .next (raise c s)
  else .next (raise .ill s)

/-- A word that matches no row of the opcode table raises `ILL` (R61, R191). -/
def rejectCommand (s : State) : Outcome := .next (raise .ill s)

/-- The host drives a command and a data-in value on the ports; its later actions are `rest` (R11). -/
def present (s : State) (cmd : Command) (din : Word) (rest : List HostEvent) : State :=
  { s with cmd := cmd, din := din, feed := rest }

/-- Reset puts the whole state of R20 in the reset state, from any state; the host's inputs are not the
ALU's to reset (R210, R211). -/
def resetAlu (s : State) : State := { s with toAlu := Alu.reset }

end Sys2Proof.Machine
end

