-- ==== Sys2Proof/Machine/AddSub.lean ====
section
/-! DEFINITION. ADD, SUB and NEG (spec/43_addsub.md R140 to R143). -/

namespace Sys2Proof.Machine

/-- `ADD.s Wd, Wa, Wb, <Ia,Fa>, <Ib,Fb>` (R141). -/
def execAdd (rd ra rb : Reg) (sg : Sign) (fa fb : Fmt) (s : State) : Outcome :=
  runCommand (.add rd ra rb sg fa fb) s do
    let x ← need (readW s ra) fa sg
    let y ← need (readW s rb) fb sg
    return writeW s rd (norm (wadd x y) (addFmt fa fb) sg)

/-- `SUB.s Wd, Wa, Wb, <Ia,Fa>, <Ib,Fb>` (R142). -/
def execSub (rd ra rb : Reg) (sg : Sign) (fa fb : Fmt) (s : State) : Outcome :=
  runCommand (.sub rd ra rb sg fa fb) s do
    let x ← need (readW s ra) fa sg
    let y ← need (readW s rb) fb sg
    return writeW s rd (norm (wsub x y) (addFmt fa fb) sg)

/-- `NEG.S Wd, Wa, <I,F>` (R143; 90_conflicts.md C6: it wraps, it does not saturate). -/
def execNeg (rd ra : Reg) (fa : Fmt) (s : State) : Outcome :=
  runCommand (.neg rd ra fa) s do
    let x ← need (readW s ra) fa .signed
    return writeW s rd (norm (wneg x) fa .signed)

end Sys2Proof.Machine
end

