-- ==== Sys2Proof/Machine/Compare.lean ====
section
/-! DEFINITION. CMP (spec/46_compare.md R170, R171; 90_conflicts.md C5: the order is always unsigned). -/

namespace Sys2Proof.Machine

/-- `CMP.s Wa, Wb, <I,F>` (R171). The signedness takes part in the operand check only. -/
def execCmp (ra rb : Reg) (sg : Sign) (fa : Fmt) (s : State) : Outcome :=
  runCommand (.cmp ra rb sg fa) s do
    let x ← need (readW s ra) fa sg
    let y ← need (readW s rb) fa sg
    return writeCompare s x y

end Sys2Proof.Machine
end

