-- ==== Sys2Proof/Machine/Convert.lean ====
section
/-! DEFINITION. PUT, GET, CVT, SAT and TOVF (spec/42_convert.md R120 to R131). -/

namespace Sys2Proof.Machine

/-- PUT under a rounding mode: `din` is converted to the target format, unchecked (R121 to R123). -/
def putBody (rd : Reg) (sg : Sign) (fb : Fmt) (rm : Rounding) (s : State) : Except Cause State :=
  .ok (writeW s rd (convert s.din fb rm sg))

/-- CVT under a rounding mode: the operand is checked, then converted to the target format (R127 to R129). -/
def cvtBody (rd ra : Reg) (sg : Sign) (fa fb : Fmt) (rm : Rounding) (s : State) : Except Cause State := do
  let w ← need (readW s ra) fa sg
  return writeW s rd (convert w fb rm sg)

/-- `PUT.TRN.s Wd, <I,F>` (R121). -/
def execPutTrn (rd : Reg) (sg : Sign) (fb : Fmt) (s : State) : Outcome :=
  runCommand (.putTrn rd sg fb) s (putBody rd sg fb .trn s)

/-- `PUT.RND.s Wd, <I,F>` (R122). -/
def execPutRnd (rd : Reg) (sg : Sign) (fb : Fmt) (s : State) : Outcome :=
  runCommand (.putRnd rd sg fb) s (putBody rd sg fb .rnd s)

/-- `PUT.RTZ.s Wd, <I,F>` (R123). -/
def execPutRtz (rd : Reg) (sg : Sign) (fb : Fmt) (s : State) : Outcome :=
  runCommand (.putRtz rd sg fb) s (putBody rd sg fb .rtz s)

/-- `GET Wa`: no format, no check, no change to the register (R124). -/
def execGet (ra : Reg) (s : State) : Outcome :=
  runCommand (.get ra) s (.ok (writeDout s (readW s ra)))

/-- `CVT.TRN.s Wd, Wa, <Is,Fs>, <It,Ft>` (R127). -/
def execCvtTrn (rd ra : Reg) (sg : Sign) (fa fb : Fmt) (s : State) : Outcome :=
  runCommand (.cvtTrn rd ra sg fa fb) s (cvtBody rd ra sg fa fb .trn s)

/-- `CVT.RND.s Wd, Wa, <Is,Fs>, <It,Ft>` (R128). -/
def execCvtRnd (rd ra : Reg) (sg : Sign) (fa fb : Fmt) (s : State) : Outcome :=
  runCommand (.cvtRnd rd ra sg fa fb) s (cvtBody rd ra sg fa fb .rnd s)

/-- `CVT.RTZ.s Wd, Wa, <Is,Fs>, <It,Ft>` (R129). -/
def execCvtRtz (rd ra : Reg) (sg : Sign) (fa fb : Fmt) (s : State) : Outcome :=
  runCommand (.cvtRtz rd ra sg fa fb) s (cvtBody rd ra sg fa fb .rtz s)

/-- `SAT.S Wd, Wa, <Is,Fs>, <It,Ft>` (R130). -/
def execSat (rd ra : Reg) (fa fb : Fmt) (s : State) : Outcome :=
  runCommand (.sat rd ra fa fb) s do
    let w ← need (readW s ra) fa .signed
    return writeW s rd (saturate w fb)

/-- `TOVF.s Wa, <Is,Fs>, It` (R131). -/
def execTovf (ra : Reg) (sg : Sign) (fa : Fmt) (it : Int) (s : State) : Outcome :=
  runCommand (.tovf ra sg fa it) s do
    let w ← need (readW s ra) fa sg
    return writeOvf s (testovf w it sg)

end Sys2Proof.Machine
end

