-- ==== Sys2Proof/Machine/Div.lean ====
section
/-! DEFINITION. DIV (spec/45_div.md R160 to R163). -/

namespace Sys2Proof.Machine

/-- `DIV.s Wd, Wa, Wb, <Ia,Fa>, <Ib,Fb>` (R161): the operand checks come before the test for a zero divisor (R194). -/
def execDiv (rd ra rb : Reg) (sg : Sign) (fa fb : Fmt) (s : State) : Outcome :=
  runCommand (.div rd ra rb sg fa fb) s do
    let x ← need (readW s ra) fa sg
    let y ← need (readW s rb) fb sg
    let y ← needDivisor y
    let q := wdiv (stored x fa.frac sg) (stored y fb.frac sg) sg
    return writeW s rd (norm (shl q (lowBit (divFmt fa fb).frac)) (divFmt fa fb) sg)

end Sys2Proof.Machine
end

