-- ==== Sys2Proof/Machine/Mul.lean ====
section
/-! DEFINITION. MUL, and the three multiplier paths the spec gives beside it (spec/44_mul.md R150 to R157).
The meaning is R151, "independent of the path taken"; the paths are there to be proved equal to it (R156,
log 15). -/

namespace Sys2Proof.Machine

/-- `MUL.s Wd, Wa, Wb, <Ia,Fa>, <Ib,Fb>` (R151). A well-formed MUL has `FA + FB <= 63`, so the last shift is by
at least 1; the body of any other is discarded by `runCommand` (log 20). -/
def execMul (rd ra rb : Reg) (sg : Sign) (fa fb : Fmt) (s : State) : Outcome :=
  runCommand (.mul rd ra rb sg fa fb) s do
    let x ← need (readW s ra) fa sg
    let y ← need (readW s rb) fb sg
    let p := wmul (stored x fa.frac sg) (stored y fb.frac sg)
    return writeW s rd (shl p (64 - (fa.frac + fb.frac)))

/-- The three multiplier algorithms (R152). -/
inductive MulPath where
  | narrow
  | widen
  | full
deriving DecidableEq, Repr

/-- The path the formats of the command select (R152). -/
def mulPath (fa fb : Fmt) : MulPath :=
  let wa := fa.int + fa.frac
  let wb := fb.int + fb.frac
  if wa + wb ≤ 64 then .narrow
  else if wa ≤ 64 ∧ wb ≤ 64 then .widen
  else .full

/-- The product word `p` of two stored integers as a path computes it (R153, R154, R155). -/
def pathProduct (kx ky : Word) (sg : Sign) : MulPath → Word
  | .narrow =>
    match sg with
    | .signed => (limbMul (lo kx) (lo ky)).signExtend 128
    | .unsigned => (limbMul (lo kx) (lo ky)).zeroExtend 128
  | .widen => wideMul (lo kx) (lo ky) sg
  | .full => wmul kx ky

end Sys2Proof.Machine
end

