-- ==== Sys2Proof/Machine/Dispatch.lean ====
section
/-! DEFINITION. One arm per command. -/

namespace Sys2Proof.Machine

def exec (i : Instr) (s : State) : Host.Outcome State Fault Refusal :=
  match i with
  | .putTrn rd sg fb => Sys2Proof.Machine.execPutTrn rd sg fb s
  | .putRnd rd sg fb => Sys2Proof.Machine.execPutRnd rd sg fb s
  | .putRtz rd sg fb => Sys2Proof.Machine.execPutRtz rd sg fb s
  | .get ra => Sys2Proof.Machine.execGet ra s
  | .cvtTrn rd ra sg fa fb => Sys2Proof.Machine.execCvtTrn rd ra sg fa fb s
  | .cvtRnd rd ra sg fa fb => Sys2Proof.Machine.execCvtRnd rd ra sg fa fb s
  | .cvtRtz rd ra sg fa fb => Sys2Proof.Machine.execCvtRtz rd ra sg fa fb s
  | .sat rd ra fa fb => Sys2Proof.Machine.execSat rd ra fa fb s
  | .tovf ra sg fa it => Sys2Proof.Machine.execTovf ra sg fa it s
  | .add rd ra rb sg fa fb => Sys2Proof.Machine.execAdd rd ra rb sg fa fb s
  | .sub rd ra rb sg fa fb => Sys2Proof.Machine.execSub rd ra rb sg fa fb s
  | .neg rd ra fa => Sys2Proof.Machine.execNeg rd ra fa s
  | .mul rd ra rb sg fa fb => Sys2Proof.Machine.execMul rd ra rb sg fa fb s
  | .div rd ra rb sg fa fb => Sys2Proof.Machine.execDiv rd ra rb sg fa fb s
  | .cmp ra rb sg fa => Sys2Proof.Machine.execCmp ra rb sg fa s

end Sys2Proof.Machine
end

