-- ==== Sys2Proof/Machine/Port.lean ====
section
/-! DEFINITION. The command port: what one action of the host does to the ALU (spec/00_scope.md R9, R11;
20_memory.md R45; 60_exceptions.md R191, R196; 70_reset_and_hazards.md R210, R217). -/

namespace Sys2Proof.Machine

/-- The ALU executes the command on its port, or raises `ILL` when the word matches no row. In a faulted ALU
both leave the state as it is (R196). -/
def runPort (s : State) : Outcome :=
  match decode s.cmd with
  | .ok i => exec i s
  | .error _ => rejectCommand s

/-- R11's step function, `step : State -> Command -> Word128 -> State`, over R20's state alone: the command and
the data-in value are its arguments, and no action of the host to come is needed. -/
def aluStep (a : Alu) (cmd : Command) (din : Word) : Alu :=
  match runPort { toAlu := a, cmd := cmd, din := din, feed := [] } with
  | .next t => t.toAlu
  | .fault _ => a
  | .refused _ => a

/-- One action of the host (R11, R210). -/
def hostAction (s : State) (rest : List HostEvent) : HostEvent → Outcome
  | .issue cmd din => runPort (present s cmd din rest)
  | .reset => .next (resetAlu { s with feed := rest })
  | .issueCutByReset cmd din => .next (resetAlu (present s cmd din rest))

/-- One step of a run: the host's next action. When the host issues nothing the state holds (R205, R217).
DEDUCED (log 3). -/
def nextAction (s : State) : Outcome :=
  match s.feed with
  | [] => .next s
  | e :: rest => hostAction s rest e

end Sys2Proof.Machine
end

