-- ==== Sys2Proof/Machine/Step.lean ====
section
/-! DEFINITION. The step function, and how a command is put where the step takes its next one. -/

namespace Sys2Proof.Machine

/-- One step: the host's next action at the command port (R11). -/
def step (s : State) : Host.Outcome State Fault Refusal := nextAction s

/-- `s` with the opcode-table word as the next command the host issues, the data-in bus as it stands. The
machine fetches nothing (R24): a command exists while the host presents it (R48), so the command is put at
the head of the host's actions (log 4). -/
def State.withFetchWord (s : State) (nbits w : Nat) : State :=
  { s with feed := .issue (tableCommand nbits w) s.din :: s.feed }

end Sys2Proof.Machine
end

