-- ==== Sys2Proof/Machine/Roles.lean ====
section
/-! DEFINITION. Which registers each command reads and writes, and under which formats: the tables of
spec/10_state.md R22, R23 and 30_encoding.md R52, written once. The meanings do not use them; statements
about every command are put in their terms. -/

namespace Sys2Proof.Machine

/-- The registers a command reads (R23). -/
def sources : Instr → List Reg
  | .putTrn _ _ _ => []
  | .putRnd _ _ _ => []
  | .putRtz _ _ _ => []
  | .get ra => [ra]
  | .cvtTrn _ ra _ _ _ => [ra]
  | .cvtRnd _ ra _ _ _ => [ra]
  | .cvtRtz _ ra _ _ _ => [ra]
  | .sat _ ra _ _ => [ra]
  | .tovf ra _ _ _ => [ra]
  | .add _ ra rb _ _ _ => [ra, rb]
  | .sub _ ra rb _ _ _ => [ra, rb]
  | .neg _ ra _ => [ra]
  | .mul _ ra rb _ _ _ => [ra, rb]
  | .div _ ra rb _ _ _ => [ra, rb]
  | .cmp ra rb _ _ => [ra, rb]

/-- The formats a command reads its registers under (R52); PUT and GET read none under a format (R192). -/
def readsUnder : Instr → List (Reg × Fmt × Sign)
  | .putTrn _ _ _ => []
  | .putRnd _ _ _ => []
  | .putRtz _ _ _ => []
  | .get _ => []
  | .cvtTrn _ ra sg fa _ => [(ra, fa, sg)]
  | .cvtRnd _ ra sg fa _ => [(ra, fa, sg)]
  | .cvtRtz _ ra sg fa _ => [(ra, fa, sg)]
  | .sat _ ra fa _ => [(ra, fa, .signed)]
  | .tovf ra sg fa _ => [(ra, fa, sg)]
  | .add _ ra rb sg fa fb => [(ra, fa, sg), (rb, fb, sg)]
  | .sub _ ra rb sg fa fb => [(ra, fa, sg), (rb, fb, sg)]
  | .neg _ ra fa => [(ra, fa, .signed)]
  | .mul _ ra rb sg fa fb => [(ra, fa, sg), (rb, fb, sg)]
  | .div _ ra rb sg fa fb => [(ra, fa, sg), (rb, fb, sg)]
  | .cmp ra rb sg fa => [(ra, fa, sg), (rb, fa, sg)]

/-- The register whose word must not be zero: DIV's divisor (R193). -/
def divisor : Instr → Option Reg
  | .div _ _ rb _ _ _ => some rb
  | .putTrn _ _ _ => none
  | .putRnd _ _ _ => none
  | .putRtz _ _ _ => none
  | .get _ => none
  | .cvtTrn _ _ _ _ _ => none
  | .cvtRnd _ _ _ _ _ => none
  | .cvtRtz _ _ _ _ _ => none
  | .sat _ _ _ _ => none
  | .tovf _ _ _ _ => none
  | .add _ _ _ _ _ _ => none
  | .sub _ _ _ _ _ _ => none
  | .neg _ _ _ => none
  | .mul _ _ _ _ _ _ => none
  | .cmp _ _ _ _ => none

/-- The register a command writes and the format it writes it under, where it writes one (R22, R23). -/
def writes : Instr → Option (Reg × Fmt × Sign)
  | .putTrn rd sg fb => some (rd, fb, sg)
  | .putRnd rd sg fb => some (rd, fb, sg)
  | .putRtz rd sg fb => some (rd, fb, sg)
  | .get _ => none
  | .cvtTrn rd _ sg _ fb => some (rd, fb, sg)
  | .cvtRnd rd _ sg _ fb => some (rd, fb, sg)
  | .cvtRtz rd _ sg _ fb => some (rd, fb, sg)
  | .sat rd _ _ fb => some (rd, fb, .signed)
  | .tovf _ _ _ _ => none
  | .add rd _ _ sg fa fb => some (rd, addFmt fa fb, sg)
  | .sub rd _ _ sg fa fb => some (rd, addFmt fa fb, sg)
  | .neg rd _ fa => some (rd, fa, .signed)
  | .mul rd _ _ sg fa fb => some (rd, mulFmt fa fb, sg)
  | .div rd _ _ sg fa fb => some (rd, divFmt fa fb, sg)
  | .cmp _ _ _ _ => none

end Sys2Proof.Machine
end

