-- ==== Sys2Proof/Safety.lean ====
section
/-! DEFINITION. The terms statements are put in: what a step leaves alone, what a fault entry is, and the
invariant of spec/10_state.md R32. -/

namespace Sys2Proof.Machine

/-- The state after taking fault `c` in `s`, where no fault was recorded: `CAUSE` and `FCMD` and nothing else (R195). -/
def faultEntry (c : Cause) (s : State) : State := { s with cause := c, fcmd := s.cmd }

/-- No flag changed. -/
abbrev SameFlags (s t : State) : Prop := t.flagEq = s.flagEq ∧ t.flagLt = s.flagLt ∧ t.flagOvf = s.flagOvf

/-- No value register changed. -/
abbrev SameRegisters (s t : State) : Prop := ∀ r, readW t r = readW s r

/-- The fault record did not change. -/
abbrev SameFaultRecord (s t : State) : Prop := t.cause = s.cause ∧ t.fcmd = s.fcmd

/-- The host's side, the ports and the actions to come, did not change. -/
abbrev SameInputs (s t : State) : Prop := t.cmd = s.cmd ∧ t.din = s.din ∧ t.feed = s.feed

/-- The whole state of R20 is as it was; the host's side may differ. -/
abbrev SameAlu (s t : State) : Prop := t.toAlu = s.toAlu

/-- Only value register `rd` may have changed (R9). -/
abbrev OnlyRegister (s t : State) (rd : Reg) : Prop :=
  (∀ r, r ≠ rd → readW t r = readW s r) ∧ SameFlags s t ∧ SameFaultRecord s t ∧ t.dout = s.dout ∧ SameInputs s t

/-- Only flags may have changed. -/
abbrev OnlyFlags (s t : State) : Prop :=
  SameRegisters s t ∧ SameFaultRecord s t ∧ t.dout = s.dout ∧ SameInputs s t

/-- Only `DOUT` may have changed. -/
abbrev OnlyDout (s t : State) : Prop :=
  SameRegisters s t ∧ SameFlags s t ∧ SameFaultRecord s t ∧ SameInputs s t

/-- Every operand a command reads under a format is canonical under it (R120). -/
abbrev OperandsCanonical (i : Instr) (s : State) : Prop :=
  ∀ p ∈ readsUnder i, canonical (readW s p.1) p.2.1 p.2.2 = true

/-- The divisor word of the command, if it has one, is not zero (R193). -/
abbrev DivisorNotZero (i : Instr) (s : State) : Prop := ∀ r ∈ divisor i, readW s r ≠ 0

/-- The word of the command has this opcode and rounding mode (R51, R58). -/
abbrev EncodedAs (i : Instr) (op : BitVec 6) (rm : BitVec 2) : Prop :=
  (Fields.ofCommand (encode i)).op = op ∧ (Fields.ofCommand (encode i)).rm = rm

/-- The two faults of a command with no divisor: `ILL` when it is not well formed, else `NCN` when an operand
is not canonical; each is fault entry and nothing more (R191, R192, R195). -/
def FaultsIllNcn (i : Instr) (s : State) : Prop :=
  (i.wellFormed = false → exec i s = .next (faultEntry .ill s)) ∧
  (i.wellFormed = true → ¬ OperandsCanonical i s → exec i s = .next (faultEntry .ncn s))

/-- The command completes: it answers a next state in which only register `rd` may have changed, and `rd`
holds `v`. -/
def CompletesWith (i : Instr) (s : State) (rd : Reg) (v : Word) : Prop :=
  ∃ t, exec i s = .next t ∧ OnlyRegister s t rd ∧ readW t rd = v

/-- A safe state: the ALU is not faulted. -/
abbrev Safe (s : State) : Prop := s.cause = .none

/-- R32: while no fault is recorded `FCMD` is zero, and every register holds a word canonical under some valid format. -/
def Inv (s : State) : Prop :=
  (s.cause = .none → s.fcmd = 0) ∧
  ∀ r, ∃ f sg, Fmt.Valid f ∧ canonical (readW s r) f sg = true

/-- The host issues commands only, each left to complete: no reset among the actions to come. -/
def CommandsOnly (feed : List HostEvent) : Prop := ∀ e ∈ feed, ∃ cmd din, e = .issue cmd din

end Sys2Proof.Machine
end

