-- ==== Sys2Proof/Certificates/Slice0/Obligations.lean ====
section
/-! DEFINITION. The statements for the provers. Each docstring names the rule of spec/ it formalises. Values
are integers in units of `2^-64`: the real value of a word is `value w sg / 2^64` (R7, R100). -/

open Sys2Proof Sys2Proof.Machine

/-! ## The command word -/

/-- Decoding an encoded well-formed command gives it back: no bit of any operand is dropped (R51, R53, R58, R59). -/
def Obligations.DecodeOfEncode : Prop := ∀ i : Instr, i.wellFormed = true → decode (encode i) = .ok i

/-- Each word has one meaning: the encoding of what a word decodes to is that word (R51, R59). -/
def Obligations.EncodeOfDecode : Prop := ∀ (c : Command) (i : Instr), decode c = .ok i → encode i = c

/-- The decoder follows R58: a word selects a row of the match and mask table exactly when it decodes to an
instruction of that row; a word with an unassigned opcode decodes to none; and a word spells an instruction
only if it also passes R60. That decoding stops at step 3 of R62, so that a row hit alone decodes, and leaves
the width check of R60 to the meaning, is the model's choice (log 8). -/
def Obligations.DecoderFollowsOpcodeMap : Prop :=
  (∀ c : Command, ∀ row ∈ opcodeRows,
    row.hit c = true ↔ ∃ i, decode c = .ok i ∧ i.mnemonic = row.mnemonic) ∧
  (∀ c : Command, (Fields.ofCommand c).op ∉
      ([0x01, 0x02, 0x03, 0x04, 0x05, 0x08, 0x09, 0x0A, 0x0B, 0x0C, 0x0D] : List (BitVec 6)) →
    decode c = .error (.unassignedOpcode (Fields.ofCommand c).op)) ∧
  (∀ (c : Command) (i : Instr), spells c = some i ↔ decode c = .ok i ∧ i.wellFormed = true)

/-- The worked encodings of R63 and R64 decode to the commands they stand for. -/
def Obligations.WrittenWordsDecode : Prop :=
  decode 0x2103010404100000 = .ok (.add 2 0 1 .signed ⟨4, 4⟩ ⟨4, 4⟩) ∧
  decode 0x0401400008200000 = .ok (.putRnd 0 .signed ⟨8, 8⟩) ∧
  decode 0x0C81014404100000 = .ok (.cvtTrn 1 0 .signed ⟨5, 4⟩ ⟨4, 4⟩) ∧
  decode 0x2D953F8A03200000 = .ok (.mul 3 1 2 .signed ⟨-2, 10⟩ ⟨3, 8⟩) ∧
  decode 0x0850000000000000 = .ok (.get 5) ∧
  decode 0x1420014004000000 = .ok (.tovf 2 .unsigned ⟨5, 0⟩ 4) ∧
  decode 0x346F01D000000000 = .ok (.cmp 6 7 .signed ⟨7, 16⟩) ∧
  decode 0x0400000001000000 = .ok (Instr.clr 0)

/-- R191: in an ALU that is not faulted, a step on an issued word records `ILL` exactly when the word spells no
instruction, and then that record is all it does. -/
def Obligations.IllExactlyWhenNoInstruction : Prop :=
  ∀ (s : State) (c : Command) (d : Word) (rest : List HostEvent),
    s.cause = .none → s.feed = .issue c d :: rest →
    ∃ t, step s = .next t ∧ (t.cause = .ill ↔ spells c = none) ∧
      (spells c = none → t = { s with cause := .ill, fcmd := c, cmd := c, din := d, feed := rest })

/-! ## The step -/

/-- When the host issues a word that decodes to a well-formed instruction, the step is that instruction on the
state with the word and its data on the ports; nothing is added around it (R9, R11). -/
def Obligations.StepRunsDecodedInstruction : Prop :=
  ∀ (s : State) (c : Command) (d : Word) (rest : List HostEvent) (i : Instr),
    s.feed = .issue c d :: rest → decode c = .ok i → i.wellFormed = true →
    step s = exec i { s with cmd := c, din := d, feed := rest }

/-- The steps that run no command. When the host issues nothing the state holds (R205; log 3, the model's
reading of a step without input). Reset, between commands or while one is executed, leaves the whole state of
R20 as `State.reset` has it, from any state, the faulted ones too (R210; log 10, the model's form of it). -/
def Obligations.IdleAndResetSteps : Prop :=
  (∀ s : State, s.feed = [] → step s = .next s) ∧
  ∀ (s : State) (e : HostEvent) (rest : List HostEvent), s.feed = e :: rest →
    (e = .reset ∨ ∃ c d, e = .issueCutByReset c d) →
    ∃ t, step s = .next t ∧ SameAlu State.reset t ∧ t.feed = rest

/-- R211: `State.reset` has the value the table gives for every piece of state; after it every register is
canonical under every format and the `fault` output is 0. -/
def Obligations.ResetStateIsTheTable : Prop :=
  (∀ r, readW State.reset r = 0) ∧ State.reset.flagEq = false ∧ State.reset.flagLt = false ∧
  State.reset.flagOvf = false ∧ State.reset.cause = .none ∧ State.reset.fcmd = 0 ∧ State.reset.dout = 0 ∧
  faultOut State.reset = 0 ∧
  ∀ (r : Reg) (f : Fmt) (sg : Sign), f.Valid → canonical (readW State.reset r) f sg = true

/-- R196: a faulted ALU accepts every command, legal or not, and ignores it: the whole state of R20 stays; and
only reset leaves the faulted state. -/
def Obligations.FaultedAluIgnoresCommands : Prop :=
  (∀ (s : State) (c : Command) (d : Word) (rest : List HostEvent),
    s.cause ≠ .none → s.feed = .issue c d :: rest →
    step s = .next { s with cmd := c, din := d, feed := rest }) ∧
  (∀ s t : State, s.cause ≠ .none → step s = .next t → t.cause = .none →
    ∃ e rest, s.feed = e :: rest ∧ (e = .reset ∨ ∃ c d, e = .issueCutByReset c d))

/-- The faulted state is absorbing over any number of commands: whatever the host issues, only reset leaves it
(R196, R217). -/
def Obligations.FaultedRunKeepsState : Prop :=
  ∀ (n : Nat) (s : State), s.cause ≠ .none → CommandsOnly s.feed →
    ∃ t, core.run n s = .next t ∧ SameAlu s t

/-- No step of the machine stops: every host action in every state answers a next state (R61, R195, R196). -/
def Obligations.StepAlwaysAnswersNext : Prop := ∀ s : State, ∃ t, step s = .next t

/-- A run takes the host's actions one at a time in the order issued, and always gets to their end (R45, R217). -/
def Obligations.RunConsumesActionsInOrder : Prop :=
  ∀ (n : Nat) (s : State), ∃ t, core.run n s = .next t ∧ t.feed = s.feed.drop n

/-- A command sees nothing of the commands after it: two runs that differ only in what comes later agree on the
whole state of R20 after the step (R45); and the step on an issued command is R11's function of the state of
R20, the command and the data-in value, with the action taken off the feed (log 1, the model's form of the
inputs). -/
def Obligations.LaterCommandsDoNotMatter : Prop :=
  (∀ (s t1 t2 : State) (e : HostEvent) (rest1 rest2 : List HostEvent),
    step { s with feed := e :: rest1 } = .next t1 → step { s with feed := e :: rest2 } = .next t2 →
    SameAlu t1 t2) ∧
  (∀ (s : State) (c : Command) (d : Word) (rest : List HostEvent), s.feed = .issue c d :: rest →
    step s = .next { toAlu := aluStep s.toAlu c d, cmd := c, din := d, feed := rest })

/-! ## Faults -/

/-- R195: a step of an unfaulted ALU on a command that ends faulted has written `CAUSE` and, with all 64 bits of
the command as issued, `FCMD`; the registers, the flags and `DOUT` keep their values. -/
def Obligations.FaultEntryIsPrecise : Prop :=
  ∀ (s t : State) (c : Command) (d : Word) (rest : List HostEvent),
    s.cause = .none → s.feed = .issue c d :: rest → step s = .next t → t.cause ≠ .none →
    t.fcmd = c ∧ SameRegisters s t ∧ SameFlags s t ∧ t.dout = s.dout ∧ t.feed = rest

/-- R194: one command takes at most one fault, in the order `ILL`, `NCN`, `DBZ`. -/
def Obligations.FaultPriority : Prop :=
  ∀ (i : Instr) (s : State), s.cause = .none →
    (i.wellFormed = false → exec i s = .next (faultEntry .ill s)) ∧
    (i.wellFormed = true → ¬ OperandsCanonical i s → exec i s = .next (faultEntry .ncn s)) ∧
    (i.wellFormed = true → OperandsCanonical i s → ¬ DivisorNotZero i s →
      exec i s = .next (faultEntry .dbz s)) ∧
    (i.wellFormed = true → OperandsCanonical i s → DivisorNotZero i s →
      ∃ t, exec i s = .next t ∧ t.cause = .none)

/-- R192: a well-formed command ends in `NCN` exactly when a register it reads under a format is not canonical
under it, either operand alike; the eleven commands that read under a format are those the rule lists, and PUT
and GET never raise it. -/
def Obligations.NcnExactlyWhenNotCanonical : Prop :=
  (∀ (i : Instr) (s : State), s.cause = .none → i.wellFormed = true →
    (exec i s = .next (faultEntry .ncn s) ↔
      ∃ p ∈ readsUnder i, norm (readW s p.1) p.2.1 p.2.2 ≠ readW s p.1)) ∧
  (∀ i : Instr, readsUnder i ≠ [] ↔ i.mnemonic ∈
    ["CVT.TRN", "CVT.RND", "CVT.RTZ", "SAT", "TOVF", "ADD", "SUB", "NEG", "MUL", "DIV", "CMP"])

/-! ## Frames -/

/-- R23, the written column: a command that answers a next state has changed no register but its destination,
the flags `EQ` and `LT` only if it is CMP, `OVF` only if it is TOVF, `DOUT` only if it is GET, and never the
host's side (R25, R28). -/
def Obligations.CommandsWriteOnlyTheirOwn : Prop :=
  ∀ (i : Instr) (s t : State), exec i s = .next t →
    (∀ r, (writes i).map (·.1) ≠ some r → readW t r = readW s r) ∧
    (i.mnemonic ≠ "CMP" → t.flagEq = s.flagEq ∧ t.flagLt = s.flagLt) ∧
    (i.mnemonic ≠ "TOVF" → t.flagOvf = s.flagOvf) ∧
    (i.mnemonic ≠ "GET" → t.dout = s.dout) ∧ SameInputs s t

/-- No command reads a flag, `DOUT` or `FCMD`: two states with the same registers, `CAUSE` and `din` end with
the same registers and the same `CAUSE`, whatever the rest holds; and whatever a command that is not ignored
writes is the same too: `EQ` and `LT` of a CMP, `OVF` of a TOVF, `DOUT` of a GET where no fault is taken, and
`FCMD` where one is, given the same word on the port (R25, R28, R208). -/
def Obligations.FlagsAndDoutAreNeverRead : Prop :=
  ∀ (i : Instr) (s1 s2 t1 t2 : State), s1.w = s2.w → s1.cause = s2.cause → s1.din = s2.din →
    exec i s1 = .next t1 → exec i s2 = .next t2 →
    t1.w = t2.w ∧ t1.cause = t2.cause ∧
    (t1.cause = .none → i.mnemonic = "CMP" → t1.flagEq = t2.flagEq ∧ t1.flagLt = t2.flagLt) ∧
    (t1.cause = .none → i.mnemonic = "TOVF" → t1.flagOvf = t2.flagOvf) ∧
    (t1.cause = .none → i.mnemonic = "GET" → t1.dout = t2.dout) ∧
    (s1.cause = .none → t1.cause ≠ .none → s1.cmd = s2.cmd → t1.fcmd = t2.fcmd)

/-- R23, the read column: what a command does depends on no register but its sources. Two states that agree on
the sources and on everything but the registers take the same fault or none, write the same word to the
destination, and end with the same flags and `DOUT`. -/
def Obligations.OnlySourceRegistersMatter : Prop :=
  ∀ (i : Instr) (s : State) (w' : Vector Word 8) (t1 t2 : State), s.cause = .none →
    (∀ r ∈ sources i, w'[r] = s.w[r]) →
    exec i s = .next t1 → exec i { s with w := w' } = .next t2 →
    t2.cause = t1.cause ∧ t2.flagEq = t1.flagEq ∧ t2.flagLt = t1.flagLt ∧ t2.flagOvf = t1.flagOvf ∧
    t2.dout = t1.dout ∧ (t1.cause = .none → ∀ p ∈ writes i, readW t2 p.1 = readW t1 p.1)

/-! ## PUT, GET, CVT, SAT, TOVF -/

/-- R121: PUT.TRN writes `norm(din, I, F, S)`; `ILL` is its only fault. -/
def Obligations.PutTrnMasksAndWraps : Prop :=
  ∀ (rd : Reg) (sg : Sign) (f : Fmt) (s : State), s.cause = .none →
    EncodedAs (.putTrn rd sg f) 0x01 0 ∧ FaultsIllNcn (.putTrn rd sg f) s ∧
    (f.Valid → CompletesWith (.putTrn rd sg f) s rd (norm s.din f sg))

/-- R122: PUT.RND writes `norm(din + bit(63 - F), I, F, S)`; `ILL` is its only fault. -/
def Obligations.PutRndRoundsAndWraps : Prop :=
  ∀ (rd : Reg) (sg : Sign) (f : Fmt) (s : State), s.cause = .none →
    EncodedAs (.putRnd rd sg f) 0x01 1 ∧ FaultsIllNcn (.putRnd rd sg f) s ∧
    (f.Valid → CompletesWith (.putRnd rd sg f) s rd (norm (wadd s.din (bit (63 - f.frac))) f sg))

/-- R123: PUT.RTZ adds `lowmask(64 - F)` to a negative signed `din` before `norm`, and else is PUT.TRN; `ILL` is
its only fault. -/
def Obligations.PutRtzTruncatesTowardZero : Prop :=
  ∀ (rd : Reg) (sg : Sign) (f : Fmt) (s : State), s.cause = .none →
    EncodedAs (.putRtz rd sg f) 0x01 2 ∧ FaultsIllNcn (.putRtz rd sg f) s ∧
    (f.Valid → CompletesWith (.putRtz rd sg f) s rd
      (if sg = .signed ∧ s.din.getLsbD 127 = true then norm (wadd s.din (lowmask (64 - f.frac))) f sg
       else norm s.din f sg))

/-- R124: GET copies the register to `DOUT` bit for bit and changes nothing else; it checks nothing. -/
def Obligations.GetCopiesRegister : Prop :=
  ∀ (ra : Reg) (s : State), s.cause = .none →
    EncodedAs (.get ra) 0x02 0 ∧
    ∃ t, exec (.get ra) s = .next t ∧ OnlyDout s t ∧ t.dout = readW s ra

/-- R127: CVT.TRN writes `norm(w, It, Ft, S)`; into a format at least as wide in both parts it copies the word. -/
def Obligations.CvtTrnMasksAndWraps : Prop :=
  ∀ (rd ra : Reg) (sg : Sign) (fa fb : Fmt) (s : State), s.cause = .none →
    EncodedAs (.cvtTrn rd ra sg fa fb) 0x03 0 ∧ FaultsIllNcn (.cvtTrn rd ra sg fa fb) s ∧
    (fa.Valid → fb.Valid → canonical (readW s ra) fa sg = true →
      CompletesWith (.cvtTrn rd ra sg fa fb) s rd (norm (readW s ra) fb sg) ∧
      (fa.int ≤ fb.int → fa.frac ≤ fb.frac → norm (readW s ra) fb sg = readW s ra))

/-- R128: CVT.RND writes `norm(w + bit(63 - Ft), It, Ft, S)`; when no fractional bit is dropped it equals CVT.TRN. -/
def Obligations.CvtRndRoundsAndWraps : Prop :=
  ∀ (rd ra : Reg) (sg : Sign) (fa fb : Fmt) (s : State), s.cause = .none →
    EncodedAs (.cvtRnd rd ra sg fa fb) 0x03 1 ∧ FaultsIllNcn (.cvtRnd rd ra sg fa fb) s ∧
    (fa.Valid → fb.Valid → canonical (readW s ra) fa sg = true →
      CompletesWith (.cvtRnd rd ra sg fa fb) s rd (norm (wadd (readW s ra) (bit (63 - fb.frac))) fb sg) ∧
      (fa.frac ≤ fb.frac →
        norm (wadd (readW s ra) (bit (63 - fb.frac))) fb sg = norm (readW s ra) fb sg))

/-- R129: CVT.RTZ adds `lowmask(64 - Ft)` to a negative signed word before `norm`, and else is CVT.TRN; when no
fractional bit is dropped it equals CVT.TRN; the addition does not wrap. -/
def Obligations.CvtRtzTruncatesTowardZero : Prop :=
  ∀ (rd ra : Reg) (sg : Sign) (fa fb : Fmt) (s : State), s.cause = .none →
    EncodedAs (.cvtRtz rd ra sg fa fb) 0x03 2 ∧ FaultsIllNcn (.cvtRtz rd ra sg fa fb) s ∧
    (fa.Valid → fb.Valid → canonical (readW s ra) fa sg = true →
      ∃ v, CompletesWith (.cvtRtz rd ra sg fa fb) s rd v ∧
        v = (if sg = .signed ∧ (readW s ra).getLsbD 127 = true then
              norm (wadd (readW s ra) (lowmask (64 - fb.frac))) fb sg
             else norm (readW s ra) fb sg) ∧
        (fracmask (readW s ra) fb.frac = readW s ra → v = norm (readW s ra) fb sg) ∧
        ((readW s ra).getLsbD 127 = true →
          sval (wadd (readW s ra) (lowmask (64 - fb.frac))) = sval (readW s ra) + (2 ^ (64 - fb.frac) - 1)))

/-- R130: SAT clamps to the target range, or drops the low bits without rounding; the result is canonical under
the target and never tests true. A target wider in IntBits than the source is `ILL`, and so is `S = 0`. -/
def Obligations.SatClampsToTarget : Prop :=
  (∀ c : Command, (Fields.ofCommand c).op = 0x04 → (Fields.ofCommand c).s = 0 → spells c = none) ∧
  ∀ (rd ra : Reg) (fa fb : Fmt) (s : State), s.cause = .none →
    EncodedAs (.sat rd ra fa fb) 0x04 0 ∧ FaultsIllNcn (.sat rd ra fa fb) s ∧
    (fa.int < fb.int → exec (.sat rd ra fa fb) s = .next (faultEntry .ill s)) ∧
    (fa.Valid → fb.Valid → fb.int ≤ fa.int → canonical (readW s ra) fa .signed = true →
      ∃ v, CompletesWith (.sat rd ra fa fb) s rd v ∧
        canonical v fb .signed = true ∧ testovf v fb.int .signed = false ∧
        (if testovf (readW s ra) fb.int .signed = false then v = fracmask (readW s ra) fb.frac
         else if (readW s ra).getLsbD 127 = true then sval v = -2 ^ topBit fb.int
         else sval v = 2 ^ topBit fb.int - 2 ^ lowBit fb.frac))

/-- R131: TOVF writes the overflow test to `OVF` and nothing else; against a width at least the source's, or 64,
it writes 0. -/
def Obligations.TovfWritesOvf : Prop :=
  ∀ (ra : Reg) (sg : Sign) (fa : Fmt) (it : Int) (s : State), s.cause = .none →
    EncodedAs (.tovf ra sg fa it) 0x05 0 ∧ FaultsIllNcn (.tovf ra sg fa it) s ∧
    (fa.Valid → Fmt.Valid ⟨it, fa.frac⟩ → canonical (readW s ra) fa sg = true →
      ∃ t, exec (.tovf ra sg fa it) s = .next t ∧ OnlyFlags s t ∧
        t.flagEq = s.flagEq ∧ t.flagLt = s.flagLt ∧ t.flagOvf = testovf (readW s ra) it sg ∧
        (fa.int ≤ it → t.flagOvf = false) ∧ (it = 64 → t.flagOvf = false))

/-! ## ADD, SUB, NEG, MUL, DIV, CMP -/

/-- R141: ADD writes the normalised sum, which is the exact sum word: its value is the sum of the values and it
is canonical under `<max(IA,IB)+1, max(FA,FB)>`. -/
def Obligations.AddIsExact : Prop :=
  ∀ (rd ra rb : Reg) (sg : Sign) (fa fb : Fmt) (s : State), s.cause = .none →
    EncodedAs (.add rd ra rb sg fa fb) 0x08 0 ∧ FaultsIllNcn (.add rd ra rb sg fa fb) s ∧
    (fa.Valid → fb.Valid → fa.int ≤ 63 → fb.int ≤ 63 →
      canonical (readW s ra) fa sg = true → canonical (readW s rb) fb sg = true →
      let fr : Fmt := ⟨max fa.int fb.int + 1, max fa.frac fb.frac⟩
      ∃ v, CompletesWith (.add rd ra rb sg fa fb) s rd v ∧
        v = norm (wadd (readW s ra) (readW s rb)) fr sg ∧ v = wadd (readW s ra) (readW s rb) ∧
        canonical v fr sg = true ∧ value v sg = value (readW s ra) sg + value (readW s rb) sg)

/-- R142: SUB writes the normalised difference; signed it is the exact difference, unsigned the difference
modulo `2^Ir`. -/
def Obligations.SubIsExactOrWraps : Prop :=
  ∀ (rd ra rb : Reg) (sg : Sign) (fa fb : Fmt) (s : State), s.cause = .none →
    EncodedAs (.sub rd ra rb sg fa fb) 0x09 0 ∧ FaultsIllNcn (.sub rd ra rb sg fa fb) s ∧
    (fa.Valid → fb.Valid → fa.int ≤ 63 → fb.int ≤ 63 →
      canonical (readW s ra) fa sg = true → canonical (readW s rb) fb sg = true →
      let fr : Fmt := ⟨max fa.int fb.int + 1, max fa.frac fb.frac⟩
      ∃ v, CompletesWith (.sub rd ra rb sg fa fb) s rd v ∧
        v = norm (wsub (readW s ra) (readW s rb)) fr sg ∧ canonical v fr sg = true ∧
        match sg with
        | .signed => sval v = sval (readW s ra) - sval (readW s rb)
        | .unsigned =>
          (uval v : Int) = ((uval (readW s ra) : Int) - uval (readW s rb)) % 2 ^ aboveTop fr.int)

/-- R143: NEG negates the value, but the most negative value of the format negates to itself; with `S = 0` it
is illegal. -/
def Obligations.NegNegatesOrWraps : Prop :=
  (∀ c : Command, (Fields.ofCommand c).op = 0x0A → (Fields.ofCommand c).s = 0 → spells c = none) ∧
  ∀ (rd ra : Reg) (f : Fmt) (s : State), s.cause = .none →
    EncodedAs (.neg rd ra f) 0x0A 0 ∧ FaultsIllNcn (.neg rd ra f) s ∧
    (f.Valid → canonical (readW s ra) f .signed = true →
      ∃ v, CompletesWith (.neg rd ra f) s rd v ∧
        v = norm (wsub 0 (readW s ra)) f .signed ∧ canonical v f .signed = true ∧
        (if sval (readW s ra) = -2 ^ topBit f.int then v = readW s ra
         else sval v = -sval (readW s ra)))

/-- R151: MUL writes the exact product, `kx * ky` shifted left by `64 - (FA+FB)`, canonical under
`<IA+IB, FA+FB>`; its value is the product of the values, here both sides times `2^128`. -/
def Obligations.MulIsExact : Prop :=
  ∀ (rd ra rb : Reg) (sg : Sign) (fa fb : Fmt) (s : State), s.cause = .none →
    EncodedAs (.mul rd ra rb sg fa fb) 0x0B 0 ∧ FaultsIllNcn (.mul rd ra rb sg fa fb) s ∧
    (fa.Valid → fb.Valid → fa.int + fb.int ≤ 64 → fa.frac + fb.frac ≤ 63 →
      canonical (readW s ra) fa sg = true → canonical (readW s rb) fb sg = true →
      ∃ v, CompletesWith (.mul rd ra rb sg fa fb) s rd v ∧
        v = shl (wmul (shr (readW s ra) (64 - fa.frac) sg) (shr (readW s rb) (64 - fb.frac) sg))
              (64 - (fa.frac + fb.frac)) ∧
        canonical v ⟨fa.int + fb.int, fa.frac + fb.frac⟩ sg = true ∧
        value v sg * 2 ^ 64 = value (readW s ra) sg * value (readW s rb) sg)

/-- R161: DIV takes `DBZ` on a zero divisor with canonical operands; else its value is the true quotient
truncated toward zero to a multiple of `2^-(FA-FB)`, but the signed quotient of the most negative dividend by
the divisor whose stored integer is -1 wraps to the most negative value of `<IA+FB, FA-FB>` (R163 (d)). -/
def Obligations.DivTruncatesTowardZero : Prop :=
  ∀ (rd ra rb : Reg) (sg : Sign) (fa fb : Fmt) (s : State), s.cause = .none →
    EncodedAs (.div rd ra rb sg fa fb) 0x0C 0 ∧ FaultsIllNcn (.div rd ra rb sg fa fb) s ∧
    (fa.Valid → fb.Valid → fb.frac ≤ fa.frac → fa.int + fb.frac ≤ 64 →
      canonical (readW s ra) fa sg = true → canonical (readW s rb) fb sg = true →
      let x := value (readW s ra) sg
      let y := value (readW s rb) sg
      let fr : Fmt := ⟨fa.int + fb.frac, fa.frac - fb.frac⟩
      (readW s rb = 0 ↔ stored (readW s rb) fb.frac sg = 0) ∧
      (readW s rb = 0 → exec (.div rd ra rb sg fa fb) s = .next (faultEntry .dbz s)) ∧
      (readW s rb ≠ 0 →
        ∃ v, CompletesWith (.div rd ra rb sg fa fb) s rd v ∧
          v = norm (shl (wdiv (shr (readW s ra) (64 - fa.frac) sg) (shr (readW s rb) (64 - fb.frac) sg) sg)
                (64 - fr.frac)) fr sg ∧
          canonical v fr sg = true ∧
          (if sg = .signed ∧ x = -2 ^ topBit fa.int ∧ y = -2 ^ lowBit fb.frac then
             value v sg = -2 ^ topBit fr.int
           else value v sg = (x * 2 ^ fr.frac).tdiv y * 2 ^ lowBit fr.frac)))

/-- R171: CMP writes `EQ` and `LT` from the words in 128-bit unsigned order, high limb first, for signed formats
too, and leaves `OVF`. -/
def Obligations.CmpComparesUnsigned : Prop :=
  ∀ (ra rb : Reg) (sg : Sign) (f : Fmt) (s : State), s.cause = .none →
    EncodedAs (.cmp ra rb sg f) 0x0D 0 ∧ FaultsIllNcn (.cmp ra rb sg f) s ∧
    (f.Valid → canonical (readW s ra) f sg = true → canonical (readW s rb) f sg = true →
      ∃ t, exec (.cmp ra rb sg f) s = .next t ∧ OnlyFlags s t ∧ t.flagOvf = s.flagOvf ∧
        t.flagEq = decide (readW s ra = readW s rb) ∧
        t.flagLt = wltLimbs (readW s ra) (readW s rb) ∧
        (t.flagLt = true ↔ uval (readW s ra) < uval (readW s rb)) ∧
        (t.flagEq = true → t.flagLt = false) ∧ (ra = rb → t.flagEq = true))

/-- R172: after one CMP the six relations, in the unsigned word order, are read from the two flags. -/
def Obligations.SixRelationsFromTwoFlags : Prop :=
  ∀ (ra rb : Reg) (sg : Sign) (f : Fmt) (s t : State), s.cause = .none → f.Valid →
    canonical (readW s ra) f sg = true → canonical (readW s rb) f sg = true →
    exec (.cmp ra rb sg f) s = .next t →
    (readRelation t .eq = true ↔ readW s ra = readW s rb) ∧
    (readRelation t .ne = true ↔ readW s ra ≠ readW s rb) ∧
    (readRelation t .lt = true ↔ uval (readW s ra) < uval (readW s rb)) ∧
    (readRelation t .le = true ↔ uval (readW s ra) ≤ uval (readW s rb)) ∧
    (readRelation t .gt = true ↔ uval (readW s rb) < uval (readW s ra)) ∧
    (readRelation t .ge = true ↔ uval (readW s rb) ≤ uval (readW s ra))

/-- R170 (c): for unsigned values and for signed values of one sign the order CMP records is the numeric order;
for signed values of opposite sign it is the reverse of it. -/
def Obligations.CmpOrderAgainstNumericOrder : Prop :=
  ∀ (ra rb : Reg) (sg : Sign) (f : Fmt) (s : State), s.cause = .none → f.Valid →
    canonical (readW s ra) f sg = true → canonical (readW s rb) f sg = true →
    ∃ t, exec (.cmp ra rb sg f) s = .next t ∧
      (if sg = .signed ∧ (readW s ra).getLsbD 127 ≠ (readW s rb).getLsbD 127 then
         (t.flagLt = true ↔ value (readW s rb) sg < value (readW s ra) sg)
       else (t.flagLt = true ↔ value (readW s ra) sg < value (readW s rb) sg))

/-- R214: after a signed SUB of two words of one format with `I <= 63`, bit 127 of the result is 1 exactly when
the left value is numerically less than the right one. -/
def Obligations.SignedOrderFromSub : Prop :=
  ∀ (rd ra rb : Reg) (f : Fmt) (s : State), s.cause = .none → f.Valid → f.int ≤ 63 →
    canonical (readW s ra) f .signed = true → canonical (readW s rb) f .signed = true →
    ∃ t u, exec (.sub rd ra rb .signed f f) s = .next t ∧ exec (.get rd) t = .next u ∧
      (u.dout.getLsbD 127 = true ↔ sval (readW s ra) < sval (readW s rb))

/-! ## The multiplier's three paths -/

/-- R156: for every well-formed MUL and canonical operands the path that the formats select (R152) computes the
same product word as the word multiply, and that word is the exact product of the stored integers; WIDEN
computes it wherever NARROW is selected too, and FULL always (R153 to R155). -/
def Obligations.MulPathsAgree : Prop :=
  ∀ (fa fb : Fmt) (sg : Sign) (x y : Word), fa.Valid → fb.Valid → fa.int + fb.int ≤ 64 →
    fa.frac + fb.frac ≤ 63 → canonical x fa sg = true → canonical y fb sg = true →
    let kx := stored x fa.frac sg
    let ky := stored y fb.frac sg
    pathProduct kx ky sg (mulPath fa fb) = wmul kx ky ∧
    (mulPath fa fb = .narrow → pathProduct kx ky sg .widen = wmul kx ky) ∧
    pathProduct kx ky sg .full = wmul kx ky ∧ value (wmul kx ky) sg = value kx sg * value ky sg

/-! ## Formats -/

/-- R103: the canonical words of a format are exactly those whose value is a multiple of `2^-F` in its range. -/
def Obligations.CanonicalWordsAreRepresentableValues : Prop :=
  ∀ (f : Fmt) (w : Word), f.Valid →
    (canonical w f .signed = true ↔
      (2 ^ lowBit f.frac : Int) ∣ sval w ∧ -2 ^ topBit f.int ≤ sval w ∧
        sval w ≤ 2 ^ topBit f.int - 2 ^ lowBit f.frac) ∧
    (canonical w f .unsigned = true ↔
      2 ^ lowBit f.frac ∣ uval w ∧ (uval w : Int) ≤ 2 ^ aboveTop f.int - 2 ^ lowBit f.frac)

/-- R104: the fractional mask keeps bits 127 down to `64 - F`, which rounds the value down to a multiple of
`2^-F`, for negative values too. -/
def Obligations.FracmaskRoundsDown : Prop :=
  ∀ (w : Word) (frac : Nat), frac ≤ 63 →
    (∀ j, (fracmask w frac).getLsbD j = (w.getLsbD j && decide (lowBit frac ≤ j))) ∧
    sval (fracmask w frac) = sval w / 2 ^ lowBit frac * 2 ^ lowBit frac ∧
    uval (fracmask w frac) = uval w / 2 ^ lowBit frac * 2 ^ lowBit frac

/-- R105: `ext` keeps bits `63 + I` and below and puts the sign bit (signed) or zero (unsigned) above. -/
def Obligations.ExtCopiesSignBit : Prop :=
  ∀ (w : Word) (i : Int) (sg : Sign), -62 ≤ i → i ≤ 64 → ∀ j, j < 128 →
    (ext w i sg).getLsbD j =
      if j ≤ topBit i then w.getLsbD j else (decide (sg = .signed) && w.getLsbD (topBit i))

/-- R106: the two steps of `norm` may be taken in either order, and `norm` rounds the value down to a multiple
of `2^-F` and wraps it modulo `2^I`. -/
def Obligations.NormFloorsAndWraps : Prop :=
  ∀ (w : Word) (f : Fmt), f.Valid →
    (∀ sg, norm w f sg = fracmask (ext w f.int sg) f.frac) ∧
    sval (norm w f .signed) =
      Int.bmod (sval w / 2 ^ lowBit f.frac * 2 ^ lowBit f.frac) (2 ^ aboveTop f.int) ∧
    uval (norm w f .unsigned) = uval w / 2 ^ lowBit f.frac * 2 ^ lowBit f.frac % 2 ^ aboveTop f.int

/-- R107: a word is canonical when its bits below `l(F)` are zero and those above `p(I)` copy the sign bit or are
zero; `norm` always gives one; zero is one; and widening a format keeps a word canonical. -/
def Obligations.CanonicalWords : Prop :=
  ∀ (w : Word) (f : Fmt) (sg : Sign), f.Valid →
    (canonical w f sg = true ↔
      (∀ j, j < lowBit f.frac → w.getLsbD j = false) ∧
      (∀ j, topBit f.int < j → j < 128 →
        w.getLsbD j = (decide (sg = .signed) && w.getLsbD (topBit f.int)))) ∧
    canonical (norm w f sg) f sg = true ∧ canonical 0 f sg = true ∧
    (∀ f' : Fmt, f'.Valid → f.int ≤ f'.int → f.frac ≤ f'.frac →
      canonical w f sg = true → canonical w f' sg = true)

/-- R108: signed, the test is false exactly when bits 127 down to `63 + I` are all alike; unsigned, exactly when
bits 127 down to `64 + I` are all zero; it is false exactly when `ext` changes nothing, so a canonical word
never tests true. -/
def Obligations.OverflowTest : Prop :=
  ∀ (w : Word) (f : Fmt), f.Valid →
    (testovf w f.int .signed = false ↔ ∀ j, topBit f.int ≤ j → j < 128 → w.getLsbD j = w.getLsbD 127) ∧
    (testovf w f.int .unsigned = false ↔ ∀ j, aboveTop f.int ≤ j → j < 128 → w.getLsbD j = false) ∧
    (∀ sg, testovf w f.int sg = false ↔ ext w f.int sg = w) ∧
    (∀ sg, canonical w f sg = true → testovf w f.int sg = false)

/-- R109: the rounding bias and the mask give the nearest multiple of `2^-F`, ties toward plus infinity:
`floor(x * 2^F + 1/2) / 2^F`, where the addition does not pass bit 127. -/
def Obligations.RoundHalfUp : Prop :=
  ∀ (w : Word) (frac : Nat), frac ≤ 63 →
    (sval w + 2 ^ (63 - frac) < 2 ^ 127 →
      sval (fracmask (adjust w frac .rnd .signed) frac) =
        (sval w + 2 ^ (63 - frac)) / 2 ^ lowBit frac * 2 ^ lowBit frac) ∧
    (uval w + 2 ^ (63 - frac) < 2 ^ 128 →
      uval (fracmask (adjust w frac .rnd .unsigned) frac) =
        (uval w + 2 ^ (63 - frac)) / 2 ^ lowBit frac * 2 ^ lowBit frac)

/-- R110, mode RTZ: a signed value is truncated toward zero to a multiple of `2^-F`; an unsigned word is left
for the mask alone. -/
def Obligations.RoundTowardZero : Prop :=
  ∀ (w : Word) (frac : Nat), frac ≤ 63 →
    sval (fracmask (adjust w frac .rtz .signed) frac) = (sval w).tdiv (2 ^ lowBit frac) * 2 ^ lowBit frac ∧
    fracmask (adjust w frac .rtz .unsigned) frac = fracmask w frac

/-- R111: saturation clamps an overflowing word to the most negative or most positive value of the target by the
sign in bit 127, passes any other through the mask, and its result is canonical and does not test true. -/
def Obligations.SaturateClamps : Prop :=
  ∀ (w : Word) (f : Fmt), f.Valid →
    (testovf w f.int .signed = false → saturate w f = fracmask w f.frac) ∧
    (testovf w f.int .signed = true → w.getLsbD 127 = true → sval (saturate w f) = -2 ^ topBit f.int) ∧
    (testovf w f.int .signed = true → w.getLsbD 127 = false →
      sval (saturate w f) = 2 ^ topBit f.int - 2 ^ lowBit f.frac) ∧
    canonical (saturate w f) f .signed = true ∧ testovf (saturate w f) f.int .signed = false ∧
    (f.int = 64 → saturate w f = fracmask w f.frac)

/-! ## The WideWord substrate -/

/-- R81: the left shift multiplies by `2^n` modulo `2^128`, and its two-limb reading agrees. -/
def Obligations.ShiftLeftAgreesWithLimbs : Prop :=
  ∀ (w : Word) (n : Nat), n < 128 →
    uval (shl w n) = uval w * 2 ^ n % 2 ^ 128 ∧ shlLimbs w n = shl w n

/-- R82: the right shifts divide by `2^n` rounding down, unsigned or signed, and their two-limb readings agree;
the selector `shr` is the arithmetic one for signed and the logical one for unsigned. That MUL and DIV use it
so is said by `MulIsExact` and `DivTruncatesTowardZero`. -/
def Obligations.ShiftRightAgreesWithLimbs : Prop :=
  ∀ (w : Word) (n : Nat), n < 128 →
    uval (shrU w n) = uval w / 2 ^ n ∧ shrULimbs w n = shrU w n ∧
    sval (shrS w n) = sval w / 2 ^ n ∧ shrSLimbs w n = shrS w n ∧
    shr w n .signed = shrS w n ∧ shr w n .unsigned = shrU w n

/-- R83: the two-limb addition with its computed carry is addition modulo `2^128`. -/
def Obligations.AddAgreesWithLimbs : Prop :=
  ∀ a b : Word, uval (wadd a b) = (uval a + uval b) % 2 ^ 128 ∧ addLimbs a b = wadd a b

/-- R84: the two-limb subtraction with its computed borrow is subtraction modulo `2^128`; negation is `0 - a`,
equal to the complement plus one, with `-0 = 0` and `-(2^127) = 2^127`. -/
def Obligations.SubAgreesWithLimbs : Prop :=
  (∀ a b : Word, (uval (wsub a b) : Int) = ((uval a : Int) - uval b) % 2 ^ 128 ∧ subLimbs a b = wsub a b ∧
    ((lo a).toNat < (lo a - lo b).toNat ↔ (lo a).toNat < (lo b).toNat)) ∧
  (∀ a : Word, wneg a = wsub 0 a ∧ wneg a = wadd (~~~ a) 1) ∧
  wneg 0 = 0 ∧ wneg (bit 127) = bit 127

/-- R86: equality and the unsigned order, read limb by limb with the high limb first, are those of the words,
and the other three relations follow from them. -/
def Obligations.OrderAgreesWithLimbs : Prop :=
  ∀ a b : Word, wltLimbs a b = wlt a b ∧ (wlt a b = true ↔ uval a < uval b) ∧
    (weqLimbs a b = true ↔ a = b) ∧ (wle a b = true ↔ uval a ≤ uval b) ∧
    (wgt a b = true ↔ uval b < uval a) ∧ (wge a b = true ↔ uval b ≤ uval a)

/-- R87: `bit(n)` is `2^n`, `lowmask(n)` is `2^n - 1`, and the complement of `lowmask(n)` has bits 127 to `n` set. -/
def Obligations.MaskBuilders : Prop :=
  ∀ n, n < 128 → uval (bit n) = 2 ^ n ∧ uval (lowmask n) = 2 ^ n - 1 ∧
    ∀ j, (~~~ lowmask n).getLsbD j = (decide (n ≤ j) && decide (j < 128))

/-- The amounts R88 lists are in the ranges it lists, for every valid format and every well-formed MUL and DIV,
and so is the width `128 - p(I)` of the all-ones field that the model's signed overflow test compares with. -/
def Obligations.ShiftAmountsInRange : Prop :=
  (∀ f : Fmt, f.Valid →
    (1 ≤ lowBit f.frac ∧ lowBit f.frac ≤ 64) ∧ 63 - f.frac ≤ 63 ∧
    (f.int ≤ 63 → 2 ≤ aboveTop f.int ∧ aboveTop f.int ≤ 127) ∧
    (1 ≤ topBit f.int ∧ topBit f.int ≤ 127) ∧
    (1 ≤ 128 - topBit f.int ∧ 128 - topBit f.int ≤ 127)) ∧
  (∀ (rd ra rb : Reg) (sg : Sign) (fa fb : Fmt), (Instr.mul rd ra rb sg fa fb).wellFormed = true →
    1 ≤ 64 - (fa.frac + fb.frac) ∧ 64 - (fa.frac + fb.frac) ≤ 64) ∧
  (∀ (rd ra rb : Reg) (sg : Sign) (fa fb : Fmt), (Instr.div rd ra rb sg fa fb).wellFormed = true →
    1 ≤ lowBit (divFmt fa fb).frac ∧ lowBit (divFmt fa fb).frac ≤ 64)

/-- R89: the word multiply keeps the low 128 bits of the product, the same for signed and unsigned readings; the
three-product limb scheme computes it; the 64-bit multiply wraps and the widening one is exact. -/
def Obligations.MultiplyAgreesWithLimbs : Prop :=
  (∀ a b : Word, uval (wmul a b) = uval a * uval b % 2 ^ 128 ∧
    wmul a b = BitVec.ofInt 128 (sval a * sval b) ∧ mulLimbs a b = wmul a b) ∧
  (∀ x y : Limb, (limbMul x y).toNat = x.toNat * y.toNat % 2 ^ 64 ∧
    sval (wideMul x y .signed) = x.toInt * y.toInt ∧ uval (wideMul x y .unsigned) = x.toNat * y.toNat)

/-- R90: the word divide truncates toward zero: signed, the magnitude of the quotient is the quotient of the
magnitudes and it is negative exactly when the operands differ in sign and it is not zero; unsigned, it is the
floor. A stored integer of a canonical dividend is never `-2^127`. -/
def Obligations.WordDivideTruncates : Prop :=
  (∀ a b : Word, b ≠ 0 →
    (∃ q : Int, wdiv a b .signed = BitVec.ofInt 128 q ∧ q.natAbs = (sval a).natAbs / (sval b).natAbs ∧
      (q < 0 ↔ ((sval a < 0 ↔ 0 < sval b) ∧ q ≠ 0))) ∧
    uval (wdiv a b .unsigned) = uval a / uval b) ∧
  (∀ (x : Word) (f : Fmt), f.Valid → canonical x f .signed = true → sval (stored x f.frac .signed) ≠ -2 ^ 127)

/-! ## The invariant -/

/-- The invariant of R32 holds after reset. -/
def Obligations.InvariantAtReset : Prop := Inv State.reset

/-- R32: every step, from every state that meets the invariant, ends in a state that meets it. -/
def Obligations.InvariantKeptByStep : Prop :=
  ∀ s t : State, Inv s → step s = .next t → Inv t

/-- R22: a command that completes leaves in the register it writes a word canonical under the format it writes
it with. -/
def Obligations.WrittenWordIsCanonical : Prop :=
  ∀ (i : Instr) (s t : State), s.cause = .none → exec i s = .next t → t.cause = .none →
    ∀ p ∈ writes i, canonical (readW t p.1) p.2.1 p.2.2 = true

/-- The outputs: bits 0, 1 and 2 of `status` are `EQ`, `LT` and `OVF` (R25), `cause` is the code of R190, and
`fault` is 1 exactly when `CAUSE` is not 0 (R198). -/
def Obligations.OutputsReadTheState : Prop :=
  ∀ s : State,
    (statusOut s).getLsbD 0 = s.flagEq ∧ (statusOut s).getLsbD 1 = s.flagLt ∧
    (statusOut s).getLsbD 2 = s.flagOvf ∧
    (causeOut s = 0 ↔ s.cause = .none) ∧ (causeOut s = 1 ↔ s.cause = .ill) ∧
    (causeOut s = 2 ↔ s.cause = .ncn) ∧ (causeOut s = 3 ↔ s.cause = .dbz) ∧
    (faultOut s = 1 ↔ causeOut s ≠ 0)
end

