-- ==== Sys2Proof/Laws/Encoding.lean ====
section
/-! SUPPORT. Laying the fields out in a command word and reading them back (spec/30_encoding.md R51). -/

namespace Sys2Proof

/-- A field of `w` bits at bit `off`, with anything above it and less than `2^off` below it, is read back. -/
theorem field_at (above f below off w : Nat) (hf : f < 2 ^ w) (hb : below < 2 ^ off) :
    ((above * 2 ^ w + f) * 2 ^ off + below) >>> off % 2 ^ w = f := by
  rw [Nat.shiftRight_eq_div_pow, Nat.add_comm, Nat.add_mul_div_right _ _ (Nat.two_pow_pos off),
    Nat.div_eq_of_lt hb, Nat.zero_add, Nat.add_comm, Nat.add_mul_mod_self_right, Nat.mod_eq_of_lt hf]

/-- The number R51 writes out, from the field values. -/
def fieldSum (op rd ra rb s rm ia fa ib fb zr : Nat) : Nat :=
  op * 2 ^ 58 + rd * 2 ^ 55 + ra * 2 ^ 52 + rb * 2 ^ 49 + s * 2 ^ 48 + rm * 2 ^ 46 + ia * 2 ^ 38 + fa * 2 ^ 32
    + ib * 2 ^ 24 + fb * 2 ^ 18 + zr

/-- The fields of the sum, each less than its width, are read back. -/
theorem fieldSum_fields {op rd ra rb s rm ia fa ib fb zr : Nat} (h1 : op < 2 ^ 6) (h2 : rd < 2 ^ 3)
    (h3 : ra < 2 ^ 3) (h4 : rb < 2 ^ 3) (h5 : s < 2 ^ 1) (h6 : rm < 2 ^ 2) (h7 : ia < 2 ^ 8) (h8 : fa < 2 ^ 6)
    (h9 : ib < 2 ^ 8) (h10 : fb < 2 ^ 6) (h11 : zr < 2 ^ 18) :
    let n := fieldSum op rd ra rb s rm ia fa ib fb zr
    n < 2 ^ 64 ∧ n >>> 58 % 2 ^ 6 = op ∧ n >>> 55 % 2 ^ 3 = rd ∧ n >>> 52 % 2 ^ 3 = ra ∧ n >>> 49 % 2 ^ 3 = rb ∧
    n >>> 48 % 2 ^ 1 = s ∧ n >>> 46 % 2 ^ 2 = rm ∧ n >>> 38 % 2 ^ 8 = ia ∧ n >>> 32 % 2 ^ 6 = fa ∧
    n >>> 24 % 2 ^ 8 = ib ∧ n >>> 18 % 2 ^ 6 = fb ∧ n >>> 0 % 2 ^ 18 = zr := by
  intro n
  have at_ : ∀ above f below off w, f < 2 ^ w → below < 2 ^ off →
      n = (above * 2 ^ w + f) * 2 ^ off + below → n >>> off % 2 ^ w = f := by
    intro above f below off w hf hb hn
    rw [hn]
    exact field_at above f below off w hf hb
  refine ⟨?_, ?_, ?_, ?_, ?_, ?_, ?_, ?_, ?_, ?_, ?_, ?_⟩
  · show fieldSum _ _ _ _ _ _ _ _ _ _ _ < _
    unfold fieldSum
    omega
  · exact at_ 0 op (rd * 2 ^ 55 + ra * 2 ^ 52 + rb * 2 ^ 49 + s * 2 ^ 48 + rm * 2 ^ 46 + ia * 2 ^ 38
      + fa * 2 ^ 32 + ib * 2 ^ 24 + fb * 2 ^ 18 + zr) 58 6 h1 (by omega) (by simp only [n, fieldSum]; ring)
  · exact at_ op rd (ra * 2 ^ 52 + rb * 2 ^ 49 + s * 2 ^ 48 + rm * 2 ^ 46 + ia * 2 ^ 38
      + fa * 2 ^ 32 + ib * 2 ^ 24 + fb * 2 ^ 18 + zr) 55 3 h2 (by omega) (by simp only [n, fieldSum]; ring)
  · exact at_ (op * 2 ^ 3 + rd) ra (rb * 2 ^ 49 + s * 2 ^ 48 + rm * 2 ^ 46 + ia * 2 ^ 38
      + fa * 2 ^ 32 + ib * 2 ^ 24 + fb * 2 ^ 18 + zr) 52 3 h3 (by omega) (by simp only [n, fieldSum]; ring)
  · exact at_ (op * 2 ^ 6 + rd * 2 ^ 3 + ra) rb (s * 2 ^ 48 + rm * 2 ^ 46 + ia * 2 ^ 38
      + fa * 2 ^ 32 + ib * 2 ^ 24 + fb * 2 ^ 18 + zr) 49 3 h4 (by omega) (by simp only [n, fieldSum]; ring)
  · exact at_ (op * 2 ^ 9 + rd * 2 ^ 6 + ra * 2 ^ 3 + rb) s (rm * 2 ^ 46 + ia * 2 ^ 38
      + fa * 2 ^ 32 + ib * 2 ^ 24 + fb * 2 ^ 18 + zr) 48 1 h5 (by omega) (by simp only [n, fieldSum]; ring)
  · exact at_ (op * 2 ^ 10 + rd * 2 ^ 7 + ra * 2 ^ 4 + rb * 2 + s) rm (ia * 2 ^ 38
      + fa * 2 ^ 32 + ib * 2 ^ 24 + fb * 2 ^ 18 + zr) 46 2 h6 (by omega) (by simp only [n, fieldSum]; ring)
  · exact at_ (op * 2 ^ 12 + rd * 2 ^ 9 + ra * 2 ^ 6 + rb * 2 ^ 3 + s * 2 ^ 2 + rm) ia
      (fa * 2 ^ 32 + ib * 2 ^ 24 + fb * 2 ^ 18 + zr) 38 8 h7 (by omega) (by simp only [n, fieldSum]; ring)
  · exact at_ (op * 2 ^ 20 + rd * 2 ^ 17 + ra * 2 ^ 14 + rb * 2 ^ 11 + s * 2 ^ 10 + rm * 2 ^ 8 + ia) fa
      (ib * 2 ^ 24 + fb * 2 ^ 18 + zr) 32 6 h8 (by omega) (by simp only [n, fieldSum]; ring)
  · exact at_ (op * 2 ^ 26 + rd * 2 ^ 23 + ra * 2 ^ 20 + rb * 2 ^ 17 + s * 2 ^ 16 + rm * 2 ^ 14 + ia * 2 ^ 6 + fa) ib
      (fb * 2 ^ 18 + zr) 24 8 h9 (by omega) (by simp only [n, fieldSum]; ring)
  · exact at_ (op * 2 ^ 34 + rd * 2 ^ 31 + ra * 2 ^ 28 + rb * 2 ^ 25 + s * 2 ^ 24 + rm * 2 ^ 22 + ia * 2 ^ 14
      + fa * 2 ^ 8 + ib) fb zr 18 6 h10 (by omega) (by simp only [n, fieldSum]; ring)
  · exact at_ (op * 2 ^ 40 + rd * 2 ^ 37 + ra * 2 ^ 34 + rb * 2 ^ 31 + s * 2 ^ 30 + rm * 2 ^ 28 + ia * 2 ^ 20
      + fa * 2 ^ 14 + ib * 2 ^ 6 + fb) zr 0 0 18 h11 (by omega) (by simp only [n, fieldSum]; ring)

/-- Reading the fields of a word laid out from fields gives them back. -/
theorem Fields.ofCommand_toCommand (f : Fields) : Fields.ofCommand f.toCommand = f := by
  obtain ⟨op, rd, ra, rb, s, rm, ia, fa, ib, fb, zero⟩ := f
  obtain ⟨hlt, g1, g2, g3, g4, g5, g6, g7, g8, g9, g10, g11⟩ :=
    fieldSum_fields op.isLt rd.isLt ra.isLt rb.isLt s.isLt rm.isLt ia.isLt fa.isLt ib.isLt fb.isLt zero.isLt
  have hn : (Fields.toCommand ⟨op, rd, ra, rb, s, rm, ia, fa, ib, fb, zero⟩).toNat =
      fieldSum op.toNat rd.toNat ra.toNat rb.toNat s.toNat rm.toNat ia.toNat fa.toNat ib.toNat fb.toNat
        zero.toNat := by
    rw [Fields.toCommand, BitVec.toNat_ofNat]
    exact Nat.mod_eq_of_lt hlt
  have field : ∀ off w (x : BitVec w), fieldSum op.toNat rd.toNat ra.toNat rb.toNat s.toNat rm.toNat ia.toNat
      fa.toNat ib.toNat fb.toNat zero.toNat >>> off % 2 ^ w = x.toNat →
      (Fields.toCommand ⟨op, rd, ra, rb, s, rm, ia, fa, ib, fb, zero⟩).extractLsb' off w = x := by
    intro off w x hx
    apply BitVec.eq_of_toNat_eq
    rw [BitVec.extractLsb'_toNat, hn, hx]
  unfold Fields.ofCommand
  rw [field 58 6 op g1, field 55 3 rd g2, field 52 3 ra g3, field 49 3 rb g4, field 48 1 s g5, field 46 2 rm g6,
    field 38 8 ia g7, field 32 6 fa g8, field 24 8 ib g9, field 18 6 fb g10, field 0 18 zero g11]

/-- Splitting a number at a field: the part above, the field and the part below. -/
theorem shift_split (n w : Nat) : n = n >>> w * 2 ^ w + n % 2 ^ w := by
  rw [Nat.shiftRight_eq_div_pow, Nat.mul_comm]
  exact (Nat.div_add_mod n (2 ^ w)).symm

/-- Laying out the fields read from a word gives the word back. -/
theorem Fields.toCommand_ofCommand (c : Command) : (Fields.ofCommand c).toCommand = c := by
  apply BitVec.eq_of_toNat_eq
  have hc := c.isLt
  have split : ∀ a w b, a + w = b → c.toNat >>> a = c.toNat >>> b * 2 ^ w + c.toNat >>> a % 2 ^ w := by
    intro a w b h
    have := shift_split (c.toNat >>> a) w
    rwa [← Nat.shiftRight_add, h] at this
  have k0 := split 0 18 18 rfl
  have k1 := split 18 6 24 rfl
  have k2 := split 24 8 32 rfl
  have k3 := split 32 6 38 rfl
  have k4 := split 38 8 46 rfl
  have k5 := split 46 2 48 rfl
  have k6 := split 48 1 49 rfl
  have k7 := split 49 3 52 rfl
  have k8 := split 52 3 55 rfl
  have k9 := split 55 3 58 rfl
  have k10 := split 58 6 64 rfl
  have top : c.toNat >>> 64 = 0 := by
    rw [Nat.shiftRight_eq_div_pow]
    exact Nat.div_eq_of_lt hc
  rw [Nat.shiftRight_zero] at k0
  rw [Fields.toCommand, BitVec.toNat_ofNat]
  simp only [Fields.ofCommand, BitVec.extractLsb'_toNat, Nat.shiftRight_zero]
  generalize c.toNat >>> 18 = n1 at *
  generalize c.toNat >>> 24 = n2 at *
  generalize c.toNat >>> 32 = n3 at *
  generalize c.toNat >>> 38 = n4 at *
  generalize c.toNat >>> 46 = n5 at *
  generalize c.toNat >>> 48 = n6 at *
  generalize c.toNat >>> 49 = n7 at *
  generalize c.toNat >>> 52 = n8 at *
  generalize c.toNat >>> 55 = n9 at *
  generalize c.toNat >>> 58 = n10 at *
  rw [top] at k10
  generalize c.toNat % 2 ^ 18 = m0 at *
  generalize n1 % 2 ^ 6 = m1 at *
  generalize n2 % 2 ^ 8 = m2 at *
  generalize n3 % 2 ^ 6 = m3 at *
  generalize n4 % 2 ^ 8 = m4 at *
  generalize n5 % 2 ^ 2 = m5 at *
  generalize n6 % 2 ^ 1 = m6 at *
  generalize n7 % 2 ^ 3 = m7 at *
  generalize n8 % 2 ^ 3 = m8 at *
  generalize n9 % 2 ^ 3 = m9 at *
  generalize n10 % 2 ^ 6 = m10 at *
  have sum : m10 * 2 ^ 58 + m9 * 2 ^ 55 + m8 * 2 ^ 52 + m7 * 2 ^ 49 + m6 * 2 ^ 48 + m5 * 2 ^ 46 + m4 * 2 ^ 38
      + m3 * 2 ^ 32 + m2 * 2 ^ 24 + m1 * 2 ^ 18 + m0 = c.toNat := by
    rw [k0, k1, k2, k3, k4, k5, k6, k7, k8, k9, k10]
    ring
  rw [sum]
  exact Nat.mod_eq_of_lt hc

end Sys2Proof
end

