-- ==== Sys2Proof/Laws/State.lean ====
section
/-! SUPPORT. One lemma per field per update of the state, true by `rfl`, so that no proof unfolds a record
update; and the two laws of the register file. -/

namespace Sys2Proof.Machine

section writeW
variable (s : State) (r : Reg) (v : Word)
@[simp] theorem writeW_flagEq : (writeW s r v).flagEq = s.flagEq := rfl
@[simp] theorem writeW_flagLt : (writeW s r v).flagLt = s.flagLt := rfl
@[simp] theorem writeW_flagOvf : (writeW s r v).flagOvf = s.flagOvf := rfl
@[simp] theorem writeW_cause : (writeW s r v).cause = s.cause := rfl
@[simp] theorem writeW_fcmd : (writeW s r v).fcmd = s.fcmd := rfl
@[simp] theorem writeW_dout : (writeW s r v).dout = s.dout := rfl
@[simp] theorem writeW_cmd : (writeW s r v).cmd = s.cmd := rfl
@[simp] theorem writeW_din : (writeW s r v).din = s.din := rfl
@[simp] theorem writeW_feed : (writeW s r v).feed = s.feed := rfl

/-- A register reads what was last written to it. -/
@[simp] theorem readW_writeW_same : readW (writeW s r v) r = v := by
  simp [readW, writeW]

/-- A write leaves every other register alone. -/
theorem readW_writeW_other {q : Reg} (h : q ≠ r) : readW (writeW s r v) q = readW s q := by
  have : r.val ≠ q.val := fun e => h (Fin.ext e.symm)
  simp [readW, writeW, this]
@[simp] theorem writeW_toInputs : (writeW s r v).toInputs = s.toInputs := rfl
end writeW

section writeDout
variable (s : State) (v : Word) (r : Reg)
@[simp] theorem writeDout_w : (writeDout s v).w = s.w := rfl
@[simp] theorem writeDout_readW : readW (writeDout s v) r = readW s r := rfl
@[simp] theorem writeDout_flagEq : (writeDout s v).flagEq = s.flagEq := rfl
@[simp] theorem writeDout_flagLt : (writeDout s v).flagLt = s.flagLt := rfl
@[simp] theorem writeDout_flagOvf : (writeDout s v).flagOvf = s.flagOvf := rfl
@[simp] theorem writeDout_cause : (writeDout s v).cause = s.cause := rfl
@[simp] theorem writeDout_fcmd : (writeDout s v).fcmd = s.fcmd := rfl
@[simp] theorem writeDout_dout : (writeDout s v).dout = v := rfl
@[simp] theorem writeDout_cmd : (writeDout s v).cmd = s.cmd := rfl
@[simp] theorem writeDout_din : (writeDout s v).din = s.din := rfl
@[simp] theorem writeDout_feed : (writeDout s v).feed = s.feed := rfl
@[simp] theorem writeDout_toInputs : (writeDout s v).toInputs = s.toInputs := rfl
end writeDout

section writeCompare
variable (s : State) (x y : Word) (r : Reg)
@[simp] theorem writeCompare_w : (writeCompare s x y).w = s.w := rfl
@[simp] theorem writeCompare_readW : readW (writeCompare s x y) r = readW s r := rfl
@[simp] theorem writeCompare_flagEq : (writeCompare s x y).flagEq = (x == y) := rfl
@[simp] theorem writeCompare_flagLt : (writeCompare s x y).flagLt = wlt x y := rfl
@[simp] theorem writeCompare_flagOvf : (writeCompare s x y).flagOvf = s.flagOvf := rfl
@[simp] theorem writeCompare_cause : (writeCompare s x y).cause = s.cause := rfl
@[simp] theorem writeCompare_fcmd : (writeCompare s x y).fcmd = s.fcmd := rfl
@[simp] theorem writeCompare_dout : (writeCompare s x y).dout = s.dout := rfl
@[simp] theorem writeCompare_cmd : (writeCompare s x y).cmd = s.cmd := rfl
@[simp] theorem writeCompare_din : (writeCompare s x y).din = s.din := rfl
@[simp] theorem writeCompare_feed : (writeCompare s x y).feed = s.feed := rfl
@[simp] theorem writeCompare_toInputs : (writeCompare s x y).toInputs = s.toInputs := rfl
end writeCompare

section writeOvf
variable (s : State) (b : Bool) (r : Reg)
@[simp] theorem writeOvf_w : (writeOvf s b).w = s.w := rfl
@[simp] theorem writeOvf_readW : readW (writeOvf s b) r = readW s r := rfl
@[simp] theorem writeOvf_flagEq : (writeOvf s b).flagEq = s.flagEq := rfl
@[simp] theorem writeOvf_flagLt : (writeOvf s b).flagLt = s.flagLt := rfl
@[simp] theorem writeOvf_flagOvf : (writeOvf s b).flagOvf = b := rfl
@[simp] theorem writeOvf_cause : (writeOvf s b).cause = s.cause := rfl
@[simp] theorem writeOvf_fcmd : (writeOvf s b).fcmd = s.fcmd := rfl
@[simp] theorem writeOvf_dout : (writeOvf s b).dout = s.dout := rfl
@[simp] theorem writeOvf_cmd : (writeOvf s b).cmd = s.cmd := rfl
@[simp] theorem writeOvf_din : (writeOvf s b).din = s.din := rfl
@[simp] theorem writeOvf_feed : (writeOvf s b).feed = s.feed := rfl
@[simp] theorem writeOvf_toInputs : (writeOvf s b).toInputs = s.toInputs := rfl
end writeOvf

section faultEntry
variable (s : State) (c : Cause) (r : Reg)
@[simp] theorem faultEntry_w : (faultEntry c s).w = s.w := rfl
@[simp] theorem faultEntry_readW : readW (faultEntry c s) r = readW s r := rfl
@[simp] theorem faultEntry_flagEq : (faultEntry c s).flagEq = s.flagEq := rfl
@[simp] theorem faultEntry_flagLt : (faultEntry c s).flagLt = s.flagLt := rfl
@[simp] theorem faultEntry_flagOvf : (faultEntry c s).flagOvf = s.flagOvf := rfl
@[simp] theorem faultEntry_cause : (faultEntry c s).cause = c := rfl
@[simp] theorem faultEntry_fcmd : (faultEntry c s).fcmd = s.cmd := rfl
@[simp] theorem faultEntry_dout : (faultEntry c s).dout = s.dout := rfl
@[simp] theorem faultEntry_cmd : (faultEntry c s).cmd = s.cmd := rfl
@[simp] theorem faultEntry_din : (faultEntry c s).din = s.din := rfl
@[simp] theorem faultEntry_feed : (faultEntry c s).feed = s.feed := rfl
@[simp] theorem faultEntry_toInputs : (faultEntry c s).toInputs = s.toInputs := rfl
end faultEntry

section present
variable (s : State) (cmd : Command) (din : Word) (rest : List HostEvent) (r : Reg)
@[simp] theorem present_w : (present s cmd din rest).w = s.w := rfl
@[simp] theorem present_readW : readW (present s cmd din rest) r = readW s r := rfl
@[simp] theorem present_flagEq : (present s cmd din rest).flagEq = s.flagEq := rfl
@[simp] theorem present_flagLt : (present s cmd din rest).flagLt = s.flagLt := rfl
@[simp] theorem present_flagOvf : (present s cmd din rest).flagOvf = s.flagOvf := rfl
@[simp] theorem present_cause : (present s cmd din rest).cause = s.cause := rfl
@[simp] theorem present_fcmd : (present s cmd din rest).fcmd = s.fcmd := rfl
@[simp] theorem present_dout : (present s cmd din rest).dout = s.dout := rfl
@[simp] theorem present_cmd : (present s cmd din rest).cmd = cmd := rfl
@[simp] theorem present_din : (present s cmd din rest).din = din := rfl
@[simp] theorem present_feed : (present s cmd din rest).feed = rest := rfl
@[simp] theorem present_toAlu : (present s cmd din rest).toAlu = s.toAlu := rfl
end present

section resetAlu
variable (s : State)
@[simp] theorem resetAlu_w : (resetAlu s).w = Vector.replicate 8 0 := rfl
@[simp] theorem resetAlu_flagEq : (resetAlu s).flagEq = false := rfl
@[simp] theorem resetAlu_flagLt : (resetAlu s).flagLt = false := rfl
@[simp] theorem resetAlu_flagOvf : (resetAlu s).flagOvf = false := rfl
@[simp] theorem resetAlu_cause : (resetAlu s).cause = .none := rfl
@[simp] theorem resetAlu_fcmd : (resetAlu s).fcmd = 0 := rfl
@[simp] theorem resetAlu_dout : (resetAlu s).dout = 0 := rfl
@[simp] theorem resetAlu_cmd : (resetAlu s).cmd = s.cmd := rfl
@[simp] theorem resetAlu_din : (resetAlu s).din = s.din := rfl
@[simp] theorem resetAlu_feed : (resetAlu s).feed = s.feed := rfl

/-- Every register reads zero after reset. -/
@[simp] theorem readW_resetAlu (r : Reg) : readW (resetAlu s) r = 0 := by
  simp [readW]

/-- Every register reads zero in the reset state. -/
@[simp] theorem readW_reset (r : Reg) : readW State.reset r = 0 := by
  simp [readW, State.reset, Alu.reset]
@[simp] theorem resetAlu_toInputs : (resetAlu s).toInputs = s.toInputs := rfl
@[simp] theorem resetAlu_toAlu : (resetAlu s).toAlu = Alu.reset := rfl
@[simp] theorem reset_toAlu : State.reset.toAlu = Alu.reset := rfl
end resetAlu

section withFetchWord
variable (s : State) (nbits w : Nat) (r : Reg)
@[simp] theorem withFetchWord_readW : readW (s.withFetchWord nbits w) r = readW s r := rfl
@[simp] theorem withFetchWord_cause : (s.withFetchWord nbits w).cause = s.cause := rfl
@[simp] theorem withFetchWord_feed :
    (s.withFetchWord nbits w).feed = .issue (tableCommand nbits w) s.din :: s.feed := rfl
@[simp] theorem withFetchWord_toAlu : (s.withFetchWord nbits w).toAlu = s.toAlu := rfl
end withFetchWord

end Sys2Proof.Machine
end

