-- ==== Sys2Proof/Laws/Ops.lean ====
section
/-! SUPPORT. For each shared operation, once, everything it can do: cite these instead of unfolding it. -/

namespace Sys2Proof.Machine

/-- The operand check succeeds exactly on a canonical word, and answers that word. -/
theorem need_eq_ok {w v : Word} {f : Fmt} {sg : Sign} :
    need w f sg = .ok v ↔ canonical w f sg = true ∧ v = w := by
  unfold need
  split <;> simp_all
  exact eq_comm

/-- The operand check fails with `NCN` alone, exactly on a word that is not canonical. -/
theorem need_eq_error {w : Word} {f : Fmt} {sg : Sign} {c : Cause} :
    need w f sg = .error c ↔ canonical w f sg = false ∧ c = .ncn := by
  unfold need
  split <;> simp_all
  exact eq_comm

/-- On a canonical word the operand check answers it. -/
theorem need_of_canonical {w : Word} {f : Fmt} {sg : Sign} (h : canonical w f sg = true) :
    need w f sg = .ok w := need_eq_ok.2 ⟨h, rfl⟩

/-- On a word that is not canonical the operand check raises `NCN`. -/
theorem need_of_not_canonical {w : Word} {f : Fmt} {sg : Sign} (h : canonical w f sg = false) :
    need w f sg = .error .ncn := need_eq_error.2 ⟨h, rfl⟩

/-- The divisor test succeeds exactly on a word that is not zero, and answers that word. -/
theorem needDivisor_eq_ok {y v : Word} : needDivisor y = .ok v ↔ y ≠ 0 ∧ v = y := by
  unfold needDivisor
  split <;> simp_all
  exact eq_comm

/-- The divisor test fails with `DBZ` alone, exactly on zero. -/
theorem needDivisor_eq_error {y : Word} {c : Cause} : needDivisor y = .error c ↔ y = 0 ∧ c = .dbz := by
  unfold needDivisor
  split <;> simp_all
  exact eq_comm

/-- Raising a fault where none is recorded is fault entry. -/
theorem raise_of_not_faulted {c : Cause} {s : State} (h : s.cause = .none) : raise c s = faultEntry c s := by
  simp [raise, faultEntry, h]

/-- Raising a fault in a faulted ALU changes nothing. -/
theorem raise_of_faulted {c : Cause} {s : State} (h : s.cause ≠ .none) : raise c s = s := by
  simp [raise, h]

/-- A faulted ALU ignores every command. -/
theorem runCommand_of_faulted {i : Instr} {s : State} {body : Except Cause State} (h : s.cause ≠ .none) :
    runCommand i s body = .next s := by
  simp [runCommand, h]

/-- A command that is not well formed takes `ILL`. -/
theorem runCommand_of_ill {i : Instr} {s : State} {body : Except Cause State} (h : s.cause = .none)
    (hi : i.wellFormed = false) : runCommand i s body = .next (faultEntry .ill s) := by
  simp [runCommand, h, hi, raise_of_not_faulted]

/-- A well-formed command whose body completes ends in the body's state. -/
theorem runCommand_of_ok {i : Instr} {s t : State} (h : s.cause = .none) (hi : i.wellFormed = true) :
    runCommand i s (.ok t) = .next t := by
  simp [runCommand, h, hi]

/-- A well-formed command whose body raises takes that fault. -/
theorem runCommand_of_error {i : Instr} {s : State} {c : Cause} (h : s.cause = .none)
    (hi : i.wellFormed = true) : runCommand i s (.error c) = .next (faultEntry c s) := by
  simp [runCommand, h, hi, raise_of_not_faulted]

/-- Everything running a command can do: be ignored, take `ILL`, complete, or take the fault its body raises. -/
theorem runCommand_cases {i : Instr} {s t : State} {body : Except Cause State}
    (h : runCommand i s body = .next t) :
    (s.cause ≠ .none ∧ t = s) ∨
    (s.cause = .none ∧ i.wellFormed = false ∧ t = faultEntry .ill s) ∨
    (s.cause = .none ∧ i.wellFormed = true ∧ body = .ok t) ∨
    (s.cause = .none ∧ i.wellFormed = true ∧ ∃ c, body = .error c ∧ t = faultEntry c s) := by
  by_cases hc : s.cause = .none
  · cases hi : i.wellFormed with
    | false =>
      rw [runCommand_of_ill hc hi] at h
      exact .inr (.inl ⟨hc, rfl, (Host.Outcome.next.inj h).symm⟩)
    | true =>
      cases body with
      | ok u =>
        rw [runCommand_of_ok hc hi] at h
        exact .inr (.inr (.inl ⟨hc, rfl, by rw [Host.Outcome.next.inj h]⟩))
      | error c =>
        rw [runCommand_of_error hc hi] at h
        exact .inr (.inr (.inr ⟨hc, rfl, c, rfl, (Host.Outcome.next.inj h).symm⟩))
  · rw [runCommand_of_faulted hc] at h
    exact .inl ⟨hc, (Host.Outcome.next.inj h).symm⟩

/-- A word that matches no row takes `ILL`. -/
theorem rejectCommand_of_not_faulted {s : State} (h : s.cause = .none) :
    rejectCommand s = .next (faultEntry .ill s) := by
  simp [rejectCommand, raise_of_not_faulted h]

/-- PUT's body always completes. -/
theorem putBody_eq (rd : Reg) (sg : Sign) (fb : Fmt) (rm : Rounding) (s : State) :
    putBody rd sg fb rm s = .ok (writeW s rd (convert s.din fb rm sg)) := rfl

/-- CVT's body completes on a canonical operand. -/
theorem cvtBody_of_canonical {rd ra : Reg} {sg : Sign} {fa fb : Fmt} {rm : Rounding} {s : State}
    (h : canonical (readW s ra) fa sg = true) :
    cvtBody rd ra sg fa fb rm s = .ok (writeW s rd (convert (readW s ra) fb rm sg)) := by
  rw [cvtBody, need_of_canonical h]
  rfl

/-- CVT's body raises `NCN` on any other. -/
theorem cvtBody_of_not_canonical {rd ra : Reg} {sg : Sign} {fa fb : Fmt} {rm : Rounding} {s : State}
    (h : canonical (readW s ra) fa sg = false) : cvtBody rd ra sg fa fb rm s = .error .ncn := by
  rw [cvtBody, need_of_not_canonical h]
  rfl

/-- The command port runs the decoded instruction. -/
theorem runPort_of_decode {s : State} {i : Instr} (h : decode s.cmd = .ok i) : runPort s = exec i s := by
  simp [runPort, h]

/-- The command port rejects a word that decodes to none. -/
theorem runPort_of_error {s : State} {e : DecodeError} (h : decode s.cmd = .error e) :
    runPort s = rejectCommand s := by
  simp [runPort, h]

/-- Without an action of the host the step answers the same state. -/
theorem step_of_idle {s : State} (h : s.feed = []) : step s = .next s := by
  simp [step, nextAction, h]

/-- With an action to come the step is that action. -/
theorem step_of_action {s : State} {e : HostEvent} {rest : List HostEvent} (h : s.feed = e :: rest) :
    step s = hostAction s rest e := by
  simp [step, nextAction, h]

end Sys2Proof.Machine
end

