-- ==== Sys2Proof/Laws/PerInstr.lean ====
section
/-! SUPPORT. The per-instruction family `FieldsOfEncode`: the fields read back from an instruction's word are
the fields the instruction was encoded with (spec/30_encoding.md R51, R59). -/

namespace Sys2Proof.Laws

/-- No field of the instruction's encoding is dropped or moved. -/
def FieldsOfEncode.Statement (i : Instr) : Prop := Fields.ofCommand (encode i) = encodeFields i

theorem FieldsOfEncode.putTrn (rd : Reg) (sg : Sign) (fb : Fmt) :
    FieldsOfEncode.Statement (.putTrn rd sg fb) := Fields.ofCommand_toCommand _

theorem FieldsOfEncode.putRnd (rd : Reg) (sg : Sign) (fb : Fmt) :
    FieldsOfEncode.Statement (.putRnd rd sg fb) := Fields.ofCommand_toCommand _

theorem FieldsOfEncode.putRtz (rd : Reg) (sg : Sign) (fb : Fmt) :
    FieldsOfEncode.Statement (.putRtz rd sg fb) := Fields.ofCommand_toCommand _

theorem FieldsOfEncode.get (ra : Reg) :
    FieldsOfEncode.Statement (.get ra) := Fields.ofCommand_toCommand _

theorem FieldsOfEncode.cvtTrn (rd ra : Reg) (sg : Sign) (fa fb : Fmt) :
    FieldsOfEncode.Statement (.cvtTrn rd ra sg fa fb) := Fields.ofCommand_toCommand _

theorem FieldsOfEncode.cvtRnd (rd ra : Reg) (sg : Sign) (fa fb : Fmt) :
    FieldsOfEncode.Statement (.cvtRnd rd ra sg fa fb) := Fields.ofCommand_toCommand _

theorem FieldsOfEncode.cvtRtz (rd ra : Reg) (sg : Sign) (fa fb : Fmt) :
    FieldsOfEncode.Statement (.cvtRtz rd ra sg fa fb) := Fields.ofCommand_toCommand _

theorem FieldsOfEncode.sat (rd ra : Reg) (fa fb : Fmt) :
    FieldsOfEncode.Statement (.sat rd ra fa fb) := Fields.ofCommand_toCommand _

theorem FieldsOfEncode.tovf (ra : Reg) (sg : Sign) (fa : Fmt) (it : Int) :
    FieldsOfEncode.Statement (.tovf ra sg fa it) := Fields.ofCommand_toCommand _

theorem FieldsOfEncode.add (rd ra rb : Reg) (sg : Sign) (fa fb : Fmt) :
    FieldsOfEncode.Statement (.add rd ra rb sg fa fb) := Fields.ofCommand_toCommand _

theorem FieldsOfEncode.sub (rd ra rb : Reg) (sg : Sign) (fa fb : Fmt) :
    FieldsOfEncode.Statement (.sub rd ra rb sg fa fb) := Fields.ofCommand_toCommand _

theorem FieldsOfEncode.neg (rd ra : Reg) (fa : Fmt) :
    FieldsOfEncode.Statement (.neg rd ra fa) := Fields.ofCommand_toCommand _

theorem FieldsOfEncode.mul (rd ra rb : Reg) (sg : Sign) (fa fb : Fmt) :
    FieldsOfEncode.Statement (.mul rd ra rb sg fa fb) := Fields.ofCommand_toCommand _

theorem FieldsOfEncode.div (rd ra rb : Reg) (sg : Sign) (fa fb : Fmt) :
    FieldsOfEncode.Statement (.div rd ra rb sg fa fb) := Fields.ofCommand_toCommand _

theorem FieldsOfEncode.cmp (ra rb : Reg) (sg : Sign) (fa : Fmt) :
    FieldsOfEncode.Statement (.cmp ra rb sg fa) := Fields.ofCommand_toCommand _

end Sys2Proof.Laws
end

