-- ==== Sys2Proof/Laws/Words.lean ====
section
/-! SUPPORT. The word primitives inside their range, `0 <= n < 128`, and the bits of the mask builders. -/

namespace Sys2Proof.Machine

theorem shl_of_lt (w : Word) {n : Nat} (h : n < 128) : shl w n = w <<< n := if_pos h

theorem shrU_of_lt (w : Word) {n : Nat} (h : n < 128) : shrU w n = w >>> n := if_pos h

theorem shrS_of_lt (w : Word) {n : Nat} (h : n < 128) : shrS w n = w.sshiftRight n := if_pos h

theorem bit_of_lt {n : Nat} (h : n < 128) : bit n = BitVec.ofNat 128 (2 ^ n) := if_pos h

theorem lowmask_of_lt {n : Nat} (h : n < 128) : lowmask n = BitVec.ofNat 128 (2 ^ n - 1) := if_pos h

/-- The bits of `lowmask n` are those below `n`. -/
theorem getLsbD_lowmask {n : Nat} (h : n < 128) (j : Nat) : (lowmask n).getLsbD j = decide (j < n) := by
  rw [lowmask_of_lt h, BitVec.getLsbD_ofNat, Nat.testBit_two_pow_sub_one]
  by_cases hj : j < n
  · have : j < 128 := by omega
    simp [hj, this]
  · simp [hj]

/-- The one bit of `bit n` is bit `n`. -/
theorem getLsbD_bit {n : Nat} (h : n < 128) (j : Nat) : (bit n).getLsbD j = decide (n = j) := by
  rw [bit_of_lt h, BitVec.getLsbD_ofNat, Nat.testBit_two_pow]
  by_cases hj : n = j
  · subst hj; simp [h]
  · simp [hj]

/-- The signed word divide by a divisor that is not zero. -/
theorem wdiv_signed_of_ne_zero (a : Word) {b : Word} (h : b ≠ 0) :
    wdiv a b .signed = BitVec.ofInt 128 ((sval a).tdiv (sval b)) := if_neg h

/-- The unsigned word divide by a divisor that is not zero. -/
theorem wdiv_unsigned_of_ne_zero (a : Word) {b : Word} (h : b ≠ 0) :
    wdiv a b .unsigned = BitVec.ofNat 128 (uval a / uval b) := if_neg h

/-- Conversion by truncation is normalising alone. -/
@[simp] theorem convert_trn (w : Word) (f : Fmt) (sg : Sign) : convert w f .trn sg = norm w f sg := rfl

/-- Conversion by rounding to nearest adds the bias first. -/
@[simp] theorem convert_rnd (w : Word) (f : Fmt) (sg : Sign) :
    convert w f .rnd sg = norm (wadd w (bit (63 - f.frac))) f sg := rfl

/-- A word is canonical exactly when normalising leaves it unchanged. -/
theorem canonical_iff {w : Word} {f : Fmt} {sg : Sign} : canonical w f sg = true ↔ norm w f sg = w := by
  simp [canonical]

end Sys2Proof.Machine
end

