-- ==== Sys2Proof/Machine/Assembler.lean ====
section
/-! DEFINITION. The written forms of words and commands (spec/20_memory.md R41; 30_encoding.md R63;
47_host_conversions.md R184). No step uses them. -/

namespace Sys2Proof.Machine

/-- One hexadecimal digit, upper case. -/
def hexDigit (n : Nat) : Char := "0123456789ABCDEF".toList.getD n '?'

/-- The lowest `digits` hexadecimal digits of `n`, most significant first. -/
def hexDigits : (digits : Nat) → (n : Nat) → String
  | 0, _ => ""
  | d + 1, n => (hexDigits d (n / 16)).push (hexDigit (n % 16))

/-- A word as written: high limb first, sixteen digits per limb, one underscore between (R41, R184). -/
def wordText (w : Word) : String := "0x" ++ hexDigits 16 (hi w).toNat ++ "_" ++ hexDigits 16 (lo w).toNat

/-- A command word as written. -/
def commandText (c : Command) : String := "0x" ++ hexDigits 16 c.toNat

/-- A register name, `W0` to `W7` (R63). -/
def regText (r : Reg) : String := "W" ++ toString r.val

/-- A format, `<I,F>` in decimal (R63). -/
def fmtText (f : Fmt) : String := "<" ++ toString f.int ++ "," ++ toString f.frac ++ ">"

/-- The `.s` of a mnemonic (R63). -/
def signText : Sign → String
  | .signed => ".S"
  | .unsigned => ".U"

/-- The operand list of a conversion: `Wd, Wa, <Is,Fs>, <It,Ft>` (R63). -/
def convertText (rd ra : Reg) (fa fb : Fmt) : String :=
  regText rd ++ ", " ++ regText ra ++ ", " ++ fmtText fa ++ ", " ++ fmtText fb

/-- The operand list of ADD, SUB, MUL and DIV: `Wd, Wa, Wb, <Ia,Fa>, <Ib,Fb>` (R63). -/
def binaryText (rd ra rb : Reg) (fa fb : Fmt) : String :=
  regText rd ++ ", " ++ regText ra ++ ", " ++ regText rb ++ ", " ++ fmtText fa ++ ", " ++ fmtText fb

/-- The operands of an instruction with the `.s` before them (R63); PUT's literal is not part of the command. -/
def operandText : Instr → String
  | .putTrn rd sg fb => signText sg ++ " " ++ regText rd ++ ", " ++ fmtText fb
  | .putRnd rd sg fb => signText sg ++ " " ++ regText rd ++ ", " ++ fmtText fb
  | .putRtz rd sg fb => signText sg ++ " " ++ regText rd ++ ", " ++ fmtText fb
  | .get ra => " " ++ regText ra
  | .cvtTrn rd ra sg fa fb => signText sg ++ " " ++ convertText rd ra fa fb
  | .cvtRnd rd ra sg fa fb => signText sg ++ " " ++ convertText rd ra fa fb
  | .cvtRtz rd ra sg fa fb => signText sg ++ " " ++ convertText rd ra fa fb
  | .sat rd ra fa fb => ".S " ++ convertText rd ra fa fb
  | .tovf ra sg fa it => signText sg ++ " " ++ regText ra ++ ", " ++ fmtText fa ++ ", " ++ toString it
  | .add rd ra rb sg fa fb => signText sg ++ " " ++ binaryText rd ra rb fa fb
  | .sub rd ra rb sg fa fb => signText sg ++ " " ++ binaryText rd ra rb fa fb
  | .neg rd ra fa => ".S " ++ regText rd ++ ", " ++ regText ra ++ ", " ++ fmtText fa
  | .mul rd ra rb sg fa fb => signText sg ++ " " ++ binaryText rd ra rb fa fb
  | .div rd ra rb sg fa fb => signText sg ++ " " ++ binaryText rd ra rb fa fb
  | .cmp ra rb sg fa => signText sg ++ " " ++ regText ra ++ ", " ++ regText rb ++ ", " ++ fmtText fa

/-- The assembler text of an instruction, without a literal (R63). -/
def assemblyText (i : Instr) : String := i.mnemonic ++ operandText i

/-- The assembler text of a command with its data-in value: PUT writes the literal, every other command
ignores it (R50, R63). -/
def issueText (i : Instr) (din : Word) : String :=
  match i with
  | .putTrn _ _ _ => assemblyText i ++ ", " ++ wordText din
  | .putRnd _ _ _ => assemblyText i ++ ", " ++ wordText din
  | .putRtz _ _ _ => assemblyText i ++ ", " ++ wordText din
  | _ => assemblyText i

end Sys2Proof.Machine
end

