-- ==== Sys2Proof/Machine/HostSide.lean ====
section
/-! DEFINITION. The host-side procedures around PUT and GET: what the host sends as `din` for a
floating-point value, and what it makes of a word it reads (spec/47_host_conversions.md R180 to R184). They
are not ALU operations and no step uses them. A finite floating-point value is taken exactly, as
`man * 2^exp`; there is no floating-point type here. DESIGN CHOICE (log 12), as decision D30 allows. -/

namespace Sys2Proof.Machine

/-- A finite floating-point value `man * 2^exp`, exact. -/
structure Dyadic where
  man : Int
  exp : Int
deriving DecidableEq, Repr

/-- `n = floor_log2(|value|) + 2` of a value that is not zero (R180). -/
def hostScale (v : Dyadic) : Int := (Nat.log2 v.man.natAbs : Int) + v.exp + 2

/-- `a / 2^k` rounded to the nearest integer (R180). Which of the two nearest it is when they are equally near
the spec does not settle: a free value. DESIGN CHOICE (log 12). -/
def nearestInteger (a : Int) (k : Nat) : Int :=
  let down := a / 2 ^ k
  let rest := a % 2 ^ k
  if 2 * rest < 2 ^ k then down
  else if 2 ^ k < 2 * rest then down + 1
  else if Config.hostTieGoesUp a k then down + 1 else down

/-- `m = round_to_nearest_integer(value * 2^(64-n))`, with `2^62 <= |m| < 2^63` (R180). The product is
`man * 2^(62 - b)`, where `b` is the place of the significand's highest bit. `none` where no such `m` is: for
zero, and for a significand of more than 63 bits that rounds up to `2^63`, which no double has. DESIGN CHOICE
(log 12). -/
def hostMantissa (v : Dyadic) : Option Int :=
  let b := Nat.log2 v.man.natAbs
  let m := if b ≤ 62 then v.man * 2 ^ (62 - b) else nearestInteger v.man (b - 62)
  if m = 0 ∨ 2 ^ 63 ≤ m.natAbs then none else some m

/-- `raw = sext_128(m) << n` for `n >= 0`, `sext_128(m) >>s (-n)` for `n < 0` (R180, D30). For `n >= 128` (a
value of at least `2^126`) and `-n >= 128` (one below `2^-129`) the shift is outside R88's range and the spec
gives no word: the shifts answer their free values there. DESIGN CHOICE (log 12). -/
def hostAlign (m : Int) (n : Int) : Word :=
  if 0 ≤ n then shl (BitVec.ofInt 128 m) n.toNat else shrS (BitVec.ofInt 128 m) (-n).toNat

/-- The `din` word the host sends for a floating-point value; `raw = 0` for zero (R180, D30). `none` where
the contract gives no word. -/
def hostRaw (v : Dyadic) : Option Word :=
  if v.man = 0 then some 0
  else (hostMantissa v).map fun m => hostAlign m (hostScale v)

/-- `k = min(max(I, 0), 64)`: the shift of the read-back window (R182). -/
def hostWindowShift (f : Fmt) : Nat := (min (max f.int 0) 64).toNat

/-- The 64-bit window the host converts to a double, `(w >> k)[63:0]`, read by the signedness; the double is
this times `2^(k-64)` (R182). -/
def hostWindow (w : Word) (f : Fmt) (sg : Sign) : Int :=
  match sg with
  | .signed => (lo (shrS w (hostWindowShift f))).toInt
  | .unsigned => (lo (shrU w (hostWindowShift f))).toNat

/-- The exact value the window stands for, before a double rounds it (R182). -/
def hostValue (w : Word) (f : Fmt) (sg : Sign) : Dyadic := ⟨hostWindow w f sg, hostWindowShift f - 64⟩

/-- The integer part of the display: the high limb as a signed or unsigned 64-bit integer (R183). -/
def displayInteger (w : Word) : Sign → Int
  | .signed => (hi w).toInt
  | .unsigned => (hi w).toNat

/-- The numerator of the display: `w[63:0] >>u (64 - F)` (R183). For `F > 64`, which no format has, the amount is
negative and is 0 here. DESIGN CHOICE (log 20). -/
def displayNumerator (w : Word) (frac : Nat) : Nat := (lo w).toNat / 2 ^ (64 - frac)

/-- The display string (R183). -/
def displayText (w : Word) (f : Fmt) (sg : Sign) : String :=
  if f.frac = 0 then toString (displayInteger w sg)
  else toString (displayInteger w sg) ++ " + " ++ toString (displayNumerator w f.frac) ++ "/"
    ++ toString (2 ^ f.frac)

/-- The raw hexadecimal dump of the two limbs (R184). -/
def dumpText (w : Word) : String := wordText w

end Sys2Proof.Machine
end

