-- ==== Sys2Proof/Tests/Slice0.lean ====
section
/-! SUPPORT. The model's own tests. Expected values are the spec's: the worked encodings of R63 and the
vectors of spec/95_test_vectors.md, or the field layout of R51 written out by hand. Then, for every statement
with hypotheses, a concrete state and operands that meet them (`test_hyp_<statement>`). -/

namespace Sys2Proof.Tests

open Sys2Proof Sys2Proof.Machine

/-- The state of an outcome, reset where there is none. -/
def after (o : Outcome) : State :=
  match o with
  | .next t => t
  | .fault _ => State.reset
  | .refused _ => State.reset

/-- A small state: `W[0]` and `W[1]` hold the two words, all else as after reset. -/
def st (x y : Word) : State := writeW (writeW State.reset 0 x) 1 y

/-- The reset state with a value on the data-in bus. -/
def onBus (d : Word) : State := { State.reset with din := d }

/-- The reset state with one command to come. -/
def issuing (c : Command) (d : Word) : State := { State.reset with feed := [.issue c d] }

/-- A faulted state with one command to come. -/
def faulted (c : Command) : State := { State.reset with cause := .dbz, fcmd := 7, feed := [.issue c 0] }

/-! ## Well-formedness: each check refuses a term that fails it (R57, R60) -/

theorem test_wf_int_above_64 : (Instr.putTrn 0 .signed ⟨65, 0⟩).wellFormed = false := by decide
theorem test_wf_no_declared_bits : (Instr.putRnd 0 .signed ⟨-63, 63⟩).wellFormed = false := by decide
theorem test_wf_frac_above_63 : (Instr.putRtz 0 .signed ⟨1, 64⟩).wellFormed = false := by decide
theorem test_wf_narrowest_and_widest :
    (Instr.putTrn 0 .signed ⟨-62, 63⟩).wellFormed = true ∧ (Instr.putTrn 0 .signed ⟨64, 63⟩).wellFormed = true := by
  decide
theorem test_wf_get : (Instr.get 7).wellFormed = true := by decide
theorem test_wf_cvt_source : (Instr.cvtTrn 0 0 .signed ⟨0, 0⟩ ⟨4, 4⟩).wellFormed = false := by decide
theorem test_wf_cvt_target : (Instr.cvtRnd 0 0 .signed ⟨4, 4⟩ ⟨0, 0⟩).wellFormed = false := by decide
theorem test_wf_cvtRtz_target : (Instr.cvtRtz 0 0 .signed ⟨4, 4⟩ ⟨65, 0⟩).wellFormed = false := by decide
theorem test_wf_sat_wider_target : (Instr.sat 1 0 ⟨4, 4⟩ ⟨5, 4⟩).wellFormed = false := by decide
theorem test_wf_tovf_tested_width : (Instr.tovf 2 .unsigned ⟨5, 0⟩ 0).wellFormed = false := by decide
theorem test_wf_add_65_int_bits : (Instr.add 2 0 1 .signed ⟨64, 0⟩ ⟨4, 0⟩).wellFormed = false := by decide
theorem test_wf_sub_65_int_bits : (Instr.sub 2 0 1 .signed ⟨4, 0⟩ ⟨64, 0⟩).wellFormed = false := by decide
theorem test_wf_neg_format : (Instr.neg 1 0 ⟨0, 0⟩).wellFormed = false := by decide
theorem test_wf_mul_int_sum : (Instr.mul 2 0 1 .signed ⟨33, 0⟩ ⟨32, 0⟩).wellFormed = false := by decide
theorem test_wf_mul_frac_sum : (Instr.mul 2 0 1 .signed ⟨4, 32⟩ ⟨4, 32⟩).wellFormed = false := by decide
theorem test_wf_div_frac_order : (Instr.div 2 0 1 .signed ⟨4, 4⟩ ⟨4, 8⟩).wellFormed = false := by decide
theorem test_wf_div_int_bits : (Instr.div 2 0 1 .signed ⟨60, 8⟩ ⟨4, 8⟩).wellFormed = false := by decide
theorem test_wf_cmp_format : (Instr.cmp 0 1 .signed ⟨-1, 1⟩).wellFormed = false := by decide

/-! ## Decoding: words written out field by field, OP RD RA RB S RM IA FA IB FB ZERO (R51, R58, R59) -/

theorem test_decode_putTrn : decode 0b000001_011_000_000_1_00_00000000_000000_11000010_111111_000000000000000000 = .ok (.putTrn 3 .signed ⟨-62, 63⟩) := by decide
theorem test_decode_putRnd : decode 0b000001_000_000_000_1_01_00000000_000000_00001000_001000_000000000000000000 = .ok (.putRnd 0 .signed ⟨8, 8⟩) := by decide
theorem test_decode_putRtz : decode 0b000001_111_000_000_0_10_00000000_000000_01000000_000000_000000000000000000 = .ok (.putRtz 7 .unsigned ⟨64, 0⟩) := by decide
theorem test_decode_get : decode 0b000010_000_101_000_0_00_00000000_000000_00000000_000000_000000000000000000 = .ok (.get 5) := by decide
theorem test_decode_cvtTrn : decode 0b000011_001_000_000_1_00_00000101_000100_00000100_000100_000000000000000000 = .ok (.cvtTrn 1 0 .signed ⟨5, 4⟩ ⟨4, 4⟩) := by decide
theorem test_decode_cvtRnd : decode 0b000011_000_100_000_1_01_00001000_010000_00000011_001000_000000000000000000 = .ok (.cvtRnd 0 4 .signed ⟨8, 16⟩ ⟨3, 8⟩) := by decide
theorem test_decode_cvtRtz : decode 0b000011_001_000_000_0_10_00000100_000100_00000100_000010_000000000000000000 = .ok (.cvtRtz 1 0 .unsigned ⟨4, 4⟩ ⟨4, 2⟩) := by decide
theorem test_decode_sat : decode 0b000100_001_000_000_1_00_00000101_000100_00000100_000100_000000000000000000 = .ok (.sat 1 0 ⟨5, 4⟩ ⟨4, 4⟩) := by decide
theorem test_decode_tovf : decode 0b000101_000_010_000_0_00_00000101_000000_00000100_000000_000000000000000000 = .ok (.tovf 2 .unsigned ⟨5, 0⟩ 4) := by decide
theorem test_decode_add : decode 0b001000_010_000_001_1_00_00000100_000100_00000100_000100_000000000000000000 = .ok (.add 2 0 1 .signed ⟨4, 4⟩ ⟨4, 4⟩) := by decide
theorem test_decode_sub : decode 0b001001_100_100_101_1_00_00000110_010000_00000110_010000_000000000000000000 = .ok (.sub 4 4 5 .signed ⟨6, 16⟩ ⟨6, 16⟩) := by decide
theorem test_decode_neg : decode 0b001010_001_000_000_1_00_00000100_000100_00000000_000000_000000000000000000 = .ok (.neg 1 0 ⟨4, 4⟩) := by decide
theorem test_decode_mul : decode 0b001011_011_001_010_1_00_11111110_001010_00000011_001000_000000000000000000 = .ok (.mul 3 1 2 .signed ⟨-2, 10⟩ ⟨3, 8⟩) := by decide
theorem test_decode_div : decode 0b001100_010_000_001_1_00_00000100_001000_00000100_000100_000000000000000000 = .ok (.div 2 0 1 .signed ⟨4, 8⟩ ⟨4, 4⟩) := by decide
theorem test_decode_cmp : decode 0b001101_000_110_111_1_00_00000111_010000_00000000_000000_000000000000000000 = .ok (.cmp 6 7 .signed ⟨7, 16⟩) := by decide

/-! Words that match no row, each by the check that refuses it (R61; 95_test_vectors.md 2.12). -/

theorem test_decode_all_zero : decode 0x0000000000000000 = .error (.unassignedOpcode 0) := by decide
theorem test_decode_all_ones : decode 0xFFFFFFFFFFFFFFFF = .error (.unassignedOpcode 0x3F) := by decide
theorem test_decode_rm_3 : decode 0x0401C00008200000 = .error .reservedRounding := by decide
theorem test_decode_rm_in_sub : decode 0x2503410404100000 = .error .roundingNotAllowed := by decide
theorem test_decode_zero_field : decode 0x0401000008200001 = .error .unusedFieldSet := by decide
theorem test_decode_get_signed : decode 0x0871000000000000 = .error .unusedFieldSet := by decide
theorem test_decode_neg_unsigned : decode 0x2880010400000000 = .error .signedOnly := by decide
theorem test_spells_needs_width : spells 0x0401000041000000 = none := by decide
theorem test_no_two_rows_overlap :
    opcodeRows.Pairwise fun a b => a.pattern &&& b.mask ≠ b.pattern &&& a.mask := by decide
theorem test_table_word : decodeTableWord 64 0x0850000000000000 = some (.get 5) := by decide
theorem test_fetch_word_runs : (after (step (State.reset.withFetchWord 64 0x0850000000000000))).feed = [] := by decide

/-! ## One step of each command (95_test_vectors.md, sections 2.3 to 2.11) -/

theorem test_putTrn : readW (after (exec (.putTrn 0 .signed ⟨4, 2⟩) (onBus 0xFFFFFFFFFFFFFFFD5000000000000000))) 0
    = 0xFFFFFFFFFFFFFFFD4000000000000000 := by decide
theorem test_putTrn_wraps : readW (after (exec (.putTrn 0 .unsigned ⟨8, 0⟩) (onBus 0x000000000000012C0000000000000000))) 0
    = 0x000000000000002C0000000000000000 := by decide
theorem test_putRnd_tie_up : readW (after (exec (.putRnd 0 .signed ⟨4, 2⟩) (onBus 0xFFFFFFFFFFFFFFFF6000000000000000))) 0
    = 0xFFFFFFFFFFFFFFFF8000000000000000 := by decide
theorem test_putRnd_wraps : readW (after (exec (.putRnd 0 .signed ⟨64, 0⟩) (onBus 0x7FFFFFFFFFFFFFFF8000000000000000))) 0
    = 0x80000000000000000000000000000000 := by decide
theorem test_putRtz : readW (after (exec (.putRtz 0 .signed ⟨4, 2⟩) (onBus 0xFFFFFFFFFFFFFFFD5000000000000000))) 0
    = 0xFFFFFFFFFFFFFFFD8000000000000000 := by decide
theorem test_putRtz_unsigned : readW (after (exec (.putRtz 0 .unsigned ⟨4, 2⟩) (onBus 0xFFFFFFFFFFFFFFFD5000000000000000))) 0
    = 0x000000000000000D4000000000000000 := by decide
theorem test_get : (after (exec (.get 1) (st 0 0xFFFFFFFFFFFFFFFFFFFFFFFFFFFFFFFE))).dout
    = 0xFFFFFFFFFFFFFFFFFFFFFFFFFFFFFFFE := by decide
theorem test_cvtTrn : readW (after (exec (.cvtTrn 2 0 .signed ⟨5, 4⟩ ⟨4, 4⟩) (st 0x000000000000000F0000000000000000 0))) 2
    = 0xFFFFFFFFFFFFFFFF0000000000000000 := by decide
theorem test_cvtRnd : readW (after (exec (.cvtRnd 2 0 .signed ⟨4, 4⟩ ⟨4, 0⟩) (st 0xFFFFFFFFFFFFFFFD8000000000000000 0))) 2
    = 0xFFFFFFFFFFFFFFFE0000000000000000 := by decide
theorem test_cvtRtz : readW (after (exec (.cvtRtz 2 0 .signed ⟨4, 4⟩ ⟨4, 2⟩) (st 0xFFFFFFFFFFFFFFFD5000000000000000 0))) 2
    = 0xFFFFFFFFFFFFFFFD8000000000000000 := by decide
theorem test_sat_high : readW (after (exec (.sat 2 0 ⟨5, 4⟩ ⟨4, 4⟩) (st 0x000000000000000F0000000000000000 0))) 2
    = 0x0000000000000007F000000000000000 := by decide
theorem test_sat_low : readW (after (exec (.sat 2 0 ⟨5, 4⟩ ⟨4, 4⟩) (st 0xFFFFFFFFFFFFFFF01000000000000000 0))) 2
    = 0xFFFFFFFFFFFFFFF80000000000000000 := by decide
theorem test_tovf_true : (after (exec (.tovf 0 .unsigned ⟨5, 0⟩ 4) (st 0x00000000000000100000000000000000 0))).flagOvf
    = true := by decide
theorem test_tovf_false : (after (exec (.tovf 0 .unsigned ⟨5, 0⟩ 5) (st 0x00000000000000100000000000000000 0))).flagOvf
    = false := by decide
theorem test_add : readW (after (exec (.add 0 0 1 .signed ⟨8, 2⟩ ⟨3, 6⟩)
    (st 0x00000000000000034000000000000000 0xFFFFFFFFFFFFFFFEFC00000000000000))) 0
    = 0x00000000000000023C00000000000000 := by decide
theorem test_add_limb_carry : readW (after (exec (.add 2 0 1 .unsigned ⟨1, 1⟩ ⟨1, 1⟩)
    (st 0x00000000000000008000000000000000 0x00000000000000008000000000000000))) 2
    = 0x00000000000000010000000000000000 := by decide
theorem test_sub : readW (after (exec (.sub 2 0 1 .signed ⟨8, 2⟩ ⟨3, 6⟩)
    (st 0x00000000000000034000000000000000 0xFFFFFFFFFFFFFFFEFC00000000000000))) 2
    = 0x00000000000000044400000000000000 := by decide
theorem test_sub_unsigned_below_zero : readW (after (exec (.sub 2 0 1 .unsigned ⟨4, 0⟩ ⟨4, 0⟩)
    (st 0x00000000000000030000000000000000 0x00000000000000050000000000000000))) 2
    = 0x000000000000001E0000000000000000 := by decide
theorem test_neg : readW (after (exec (.neg 2 0 ⟨4, 4⟩) (st 0x0000000000000002B000000000000000 0))) 2
    = 0xFFFFFFFFFFFFFFFD5000000000000000 := by decide
theorem test_neg_most_negative : readW (after (exec (.neg 2 0 ⟨4, 4⟩) (st 0xFFFFFFFFFFFFFFF80000000000000000 0))) 2
    = 0xFFFFFFFFFFFFFFF80000000000000000 := by decide
theorem test_mul : readW (after (exec (.mul 2 0 1 .signed ⟨4, 4⟩ ⟨4, 4⟩)
    (st 0x00000000000000018000000000000000 0xFFFFFFFFFFFFFFFEC000000000000000))) 2
    = 0xFFFFFFFFFFFFFFFE2000000000000000 := by decide
theorem test_mul_full : readW (after (exec (.mul 2 0 1 .signed ⟨40, 30⟩ ⟨20, 20⟩)
    (st 0xFFFFFF80000000000000000400000000 0x000000000007FFFFFFFFF00000000000))) 2
    = 0xFC00000000080000001FFFFFFFFFC000 := by decide
theorem test_div : readW (after (exec (.div 2 0 1 .signed ⟨4, 8⟩ ⟨4, 4⟩)
    (st 0xFFFFFFFFFFFFFFFCC000000000000000 0x00000000000000018000000000000000))) 2
    = 0xFFFFFFFFFFFFFFFDE000000000000000 := by decide
theorem test_div_overflow : readW (after (exec (.div 2 0 1 .signed ⟨4, 8⟩ ⟨4, 4⟩)
    (st 0xFFFFFFFFFFFFFFF80000000000000000 0xFFFFFFFFFFFFFFFFF000000000000000))) 2
    = 0xFFFFFFFFFFFFFF800000000000000000 := by decide
theorem test_cmp_opposite_signs : (after (exec (.cmp 0 1 .signed ⟨4, 4⟩)
    (st 0xFFFFFFFFFFFFFFFF0000000000000000 0x00000000000000010000000000000000))).flagLt = false := by decide
theorem test_cmp_low_limb : (after (exec (.cmp 0 1 .signed ⟨4, 4⟩)
    (st 0x00000000000000008000000000000000 0x0000000000000000C000000000000000))).flagLt = true := by decide

/-! ## Faults, reset and the host's side (95_test_vectors.md 2.12, 2.13; 47_host_conversions.md) -/

theorem test_ill_recorded : (after (step (issuing 0x2103100004000000 0))).cause = .ill ∧
    (after (step (issuing 0x2103100004000000 0))).fcmd = 0x2103100004000000 := by decide
theorem test_ncn_before_dbz : (after (exec (.div 2 0 1 .signed ⟨8, 0⟩ ⟨8, 0⟩)
    (st 0xFFFFFFFFFFFFFFFE8000000000000000 0))).cause = .ncn := by decide
theorem test_dbz : (after (exec (.div 2 0 1 .signed ⟨8, 8⟩ ⟨8, 8⟩)
    (st 0xFFFFFFFFFFFFFFFE8000000000000000 0))).cause = .dbz := by decide
theorem test_faulted_ignores : (after (step (faulted 0))).cause = .dbz ∧ (after (step (faulted 0))).fcmd = 7 := by decide
theorem test_reset_clears_fault :
    (after (step { faulted 0 with feed := [.issueCutByReset 0x0850000000000000 0] })).cause = .none := by decide
theorem test_display : displayText 0x00000000000000034000000000000000 ⟨8, 8⟩ .signed = "3 + 64/256" := by decide
theorem test_display_negative :
    displayText 0xFFFFFFFFFFFFFFFE8000000000000000 ⟨8, 8⟩ .signed = "-2 + 128/256" := by decide
theorem test_host_raw : hostRaw ⟨-3, -1⟩ = some 0xFFFFFFFFFFFFFFFE8000000000000000 := by decide
theorem test_host_raw_unreduced : hostRaw ⟨200 * 2 ^ 56, -56⟩ = some 0x00000000000000C80000000000000000 ∧
    hostRaw ⟨2 ^ 63, 0⟩ = some 0x80000000000000000000000000000000 ∧
    hostMantissa ⟨2 ^ 64 + 3, 0⟩ = some (2 ^ 62 + 1) := by decide

/-! ## The statements' hypotheses are met -/

theorem test_hyp_DecodeOfEncode :
    (Instr.tovf 7 .signed ⟨-62, 63⟩ 64).wellFormed = true ∧ (Instr.get 0).wellFormed = true := by decide

theorem test_hyp_EncodeOfDecode :
    decode 0x04010000C2FC0000 = .ok (.putTrn 0 .signed ⟨-62, 63⟩) := by decide

theorem test_hyp_DecoderFollowsOpcodeMap :
    (∃ row ∈ opcodeRows, row.hit 0x0870000000000000 = true) ∧
    (Fields.ofCommand 0x3800000000000000).op ∉
      ([0x01, 0x02, 0x03, 0x04, 0x05, 0x08, 0x09, 0x0A, 0x0B, 0x0C, 0x0D] : List (BitVec 6)) ∧
    spells 0x0870000000000000 = some (.get 7) := by decide

theorem test_hyp_IllExactlyWhenNoInstruction :
    (issuing 0x0401000041000000 5).cause = .none ∧
    (issuing 0x0401000041000000 5).feed = [.issue 0x0401000041000000 5] ∧ spells 0x0401000041000000 = none := by decide

theorem test_hyp_StepRunsDecodedInstruction :
    (issuing 0x21030FC03F000000 0).feed = [.issue 0x21030FC03F000000 0] ∧
    decode 0x21030FC03F000000 = .ok (.add 2 0 1 .signed ⟨63, 0⟩ ⟨63, 0⟩) ∧
    (Instr.add 2 0 1 .signed ⟨63, 0⟩ ⟨63, 0⟩).wellFormed = true := by decide

theorem test_hyp_IdleAndResetSteps :
    (st 1 2).feed = [] ∧
    ({ faulted 0 with feed := [.reset] } : State).feed = [.reset] ∧
    ({ faulted 0 with feed := [.issueCutByReset 0 0] } : State).feed = [.issueCutByReset 0 0] := by decide

theorem test_hyp_ResetStateIsTheTable : Fmt.Valid ⟨-62, 63⟩ ∧ Fmt.Valid ⟨64, 63⟩ := by decide

theorem test_hyp_FaultedAluIgnoresCommands :
    (faulted 0x0850000000000000).cause ≠ .none ∧
    (faulted 0x0850000000000000).feed = [.issue 0x0850000000000000 0] ∧
    ∃ t, step { faulted 0 with feed := [.reset] } = .next t ∧ t.cause = .none :=
  ⟨by decide, by decide, _, rfl, by decide⟩

theorem test_hyp_FaultedRunKeepsState :
    (faulted 0x0850000000000000).cause ≠ .none ∧ CommandsOnly (faulted 0x0850000000000000).feed :=
  ⟨by decide, fun e he => ⟨0x0850000000000000, 0, by simpa [faulted] using he⟩⟩

theorem test_hyp_LaterCommandsDoNotMatter :
    ∃ t1 t2, step { st 1 2 with feed := [.issue 0x0810000000000000 0] } = .next t1 ∧
      step { st 1 2 with feed := [.issue 0x0810000000000000 0, .reset] } = .next t2 ∧
      (issuing 0x0810000000000000 5).feed = [.issue 0x0810000000000000 5] :=
  ⟨_, _, rfl, rfl, rfl⟩

theorem test_hyp_FaultEntryIsPrecise :
    (issuing 0x3103010004000000 0).cause = .none ∧
    (issuing 0x3103010004000000 0).feed = [.issue 0x3103010004000000 0] ∧
    ∃ t, step (issuing 0x3103010004000000 0) = .next t ∧ t.cause ≠ .none :=
  ⟨by decide, by decide, _, rfl, by decide⟩

theorem test_hyp_FaultPriority :
    (st 0xFFFFFFFFFFFFFFFE8000000000000000 0).cause = .none ∧ (Instr.div 2 0 1 .signed ⟨8, 0⟩ ⟨8, 8⟩).wellFormed = false ∧
    ((Instr.div 2 0 1 .signed ⟨8, 0⟩ ⟨8, 0⟩).wellFormed = true ∧
      ¬ OperandsCanonical (.div 2 0 1 .signed ⟨8, 0⟩ ⟨8, 0⟩) (st 0xFFFFFFFFFFFFFFFE8000000000000000 0)) ∧
    ((Instr.div 2 0 1 .signed ⟨8, 8⟩ ⟨8, 8⟩).wellFormed = true ∧
      OperandsCanonical (.div 2 0 1 .signed ⟨8, 8⟩ ⟨8, 8⟩) (st 0xFFFFFFFFFFFFFFFE8000000000000000 0) ∧
      ¬ DivisorNotZero (.div 2 0 1 .signed ⟨8, 8⟩ ⟨8, 8⟩) (st 0xFFFFFFFFFFFFFFFE8000000000000000 0)) ∧
    (OperandsCanonical (.div 2 1 0 .signed ⟨8, 8⟩ ⟨8, 8⟩) (st 0xFFFFFFFFFFFFFFFE8000000000000000 0) ∧
      DivisorNotZero (.div 2 1 0 .signed ⟨8, 8⟩ ⟨8, 8⟩) (st 0xFFFFFFFFFFFFFFFE8000000000000000 0)) := by decide

theorem test_hyp_NcnExactlyWhenNotCanonical :
    (st 0 0xFFFFFFFFFFFFFFFE8000000000000000).cause = .none ∧ (Instr.cmp 0 1 .signed ⟨8, 0⟩).wellFormed = true ∧
    norm (readW (st 0 0xFFFFFFFFFFFFFFFE8000000000000000) 1) ⟨8, 0⟩ .signed ≠ readW (st 0 0xFFFFFFFFFFFFFFFE8000000000000000) 1 := by decide

theorem test_hyp_CommandsWriteOnlyTheirOwn :
    ∃ t, exec (.putTrn 7 .signed ⟨8, 8⟩) (st 0 0) = .next t ∧
      (writes (.putTrn 7 .signed ⟨8, 8⟩)).map (·.1) ≠ some 0 :=
  ⟨_, rfl, by decide⟩

theorem test_hyp_FlagsAndDoutAreNeverRead :
    (st 1 2).w = ({ st 1 2 with flagEq := true, dout := 9 } : State).w ∧
    ∃ t1 t2, exec (.get 0) (st 1 2) = .next t1 ∧
      exec (.get 0) { st 1 2 with flagEq := true, dout := 9 } = .next t2 :=
  ⟨rfl, _, _, rfl, rfl⟩

theorem test_hyp_FlagsAndDoutAreNeverRead_each_write :
    (after (exec (.cmp 0 1 .signed ⟨8, 0⟩) (st 0 0))).cause = .none ∧
    (after (exec (.tovf 0 .signed ⟨8, 0⟩ 4) (st 0 0))).cause = .none ∧
    (after (exec (.get 0) (st 1 2))).cause = .none ∧
    (after (exec (.neg 2 0 ⟨8, 0⟩) (st 1 2))).cause ≠ .none := by decide

theorem test_hyp_OnlySourceRegistersMatter :
    (st 0 1).cause = .none ∧
    (∀ r ∈ sources (.mul 2 0 0 .signed ⟨4, 4⟩ ⟨4, 4⟩), (st 0 2).w[r] = (st 0 1).w[r]) ∧
    ∃ t1 t2, exec (.mul 2 0 0 .signed ⟨4, 4⟩ ⟨4, 4⟩) (st 0 1) = .next t1 ∧
      exec (.mul 2 0 0 .signed ⟨4, 4⟩ ⟨4, 4⟩) { st 0 1 with w := (st 0 2).w } = .next t2 ∧
      t1.cause = .none :=
  ⟨by decide, by decide, _, _, rfl, rfl, by decide⟩

theorem test_hyp_PutTrnMasksAndWraps :
    (onBus 1).cause = .none ∧ Fmt.Valid ⟨-62, 63⟩ ∧ (Instr.putTrn 0 .signed ⟨0, 0⟩).wellFormed = false := by decide

theorem test_hyp_PutRndRoundsAndWraps :
    (onBus 1).cause = .none ∧ Fmt.Valid ⟨64, 63⟩ ∧ (Instr.putRnd 0 .signed ⟨65, 0⟩).wellFormed = false := by decide

theorem test_hyp_PutRtzTruncatesTowardZero :
    (onBus (BitVec.allOnes 128)).cause = .none ∧ Fmt.Valid ⟨64, 0⟩ ∧
    (onBus (BitVec.allOnes 128)).din.getLsbD 127 = true ∧ (Instr.putRtz 0 .signed ⟨1, 64⟩).wellFormed = false := by decide

theorem test_hyp_GetCopiesRegister :
    (st 3 4).cause = .none := by decide

theorem test_hyp_CvtTrnMasksAndWraps :
    (st 0xFFFFFFFFFFFFFFFE8000000000000000 0).cause = .none ∧ Fmt.Valid ⟨2, 1⟩ ∧ Fmt.Valid ⟨64, 63⟩ ∧
    canonical (readW (st 0xFFFFFFFFFFFFFFFE8000000000000000 0) 0) ⟨2, 1⟩ .signed = true ∧ (Instr.cvtTrn 2 0 .signed ⟨2, 1⟩ ⟨0, 0⟩).wellFormed = false ∧
    ((Instr.cvtTrn 2 0 .signed ⟨1, 1⟩ ⟨4, 4⟩).wellFormed = true ∧ ¬ OperandsCanonical (.cvtTrn 2 0 .signed ⟨1, 1⟩ ⟨4, 4⟩) (st 0xFFFFFFFFFFFFFFFE8000000000000000 0)) := by decide

theorem test_hyp_CvtRndRoundsAndWraps :
    (st 0xFFFFFFFFFFFFFFFE8000000000000000 0).cause = .none ∧ Fmt.Valid ⟨2, 1⟩ ∧ Fmt.Valid ⟨64, 1⟩ ∧
    canonical (readW (st 0xFFFFFFFFFFFFFFFE8000000000000000 0) 0) ⟨2, 1⟩ .signed = true ∧ (Instr.cvtRnd 2 0 .signed ⟨2, 1⟩ ⟨65, 0⟩).wellFormed = false ∧
    ((Instr.cvtRnd 2 0 .signed ⟨8, 0⟩ ⟨4, 4⟩).wellFormed = true ∧ ¬ OperandsCanonical (.cvtRnd 2 0 .signed ⟨8, 0⟩ ⟨4, 4⟩) (st 0xFFFFFFFFFFFFFFFE8000000000000000 0)) := by decide

theorem test_hyp_CvtRtzTruncatesTowardZero :
    (st 0xFFFFFFFFFFFFFFFE8000000000000000 0).cause = .none ∧ Fmt.Valid ⟨2, 1⟩ ∧ Fmt.Valid ⟨2, 0⟩ ∧
    canonical (readW (st 0xFFFFFFFFFFFFFFFE8000000000000000 0) 0) ⟨2, 1⟩ .signed = true ∧ (Instr.cvtRtz 2 0 .signed ⟨0, 0⟩ ⟨4, 4⟩).wellFormed = false ∧
    ((Instr.cvtRtz 2 0 .unsigned ⟨8, 8⟩ ⟨4, 4⟩).wellFormed = true ∧ ¬ OperandsCanonical (.cvtRtz 2 0 .unsigned ⟨8, 8⟩ ⟨4, 4⟩) (st 0xFFFFFFFFFFFFFFFE8000000000000000 0)) := by decide

theorem test_hyp_SatClampsToTarget :
    (st 0xFFFFFFFFFFFFFFFE8000000000000000 0).cause = .none ∧ Fmt.Valid ⟨2, 1⟩ ∧ Fmt.Valid ⟨1, 0⟩ ∧
    canonical (readW (st 0xFFFFFFFFFFFFFFFE8000000000000000 0) 0) ⟨2, 1⟩ .signed = true ∧ (Instr.sat 2 0 ⟨2, 1⟩ ⟨3, 1⟩).wellFormed = false ∧
    ((Instr.sat 2 0 ⟨8, 0⟩ ⟨4, 4⟩).wellFormed = true ∧ ¬ OperandsCanonical (.sat 2 0 ⟨8, 0⟩ ⟨4, 4⟩) (st 0xFFFFFFFFFFFFFFFE8000000000000000 0)) := by decide

theorem test_hyp_SatClampsToTarget_each_clamp :
    testovf (readW (st 0xFFFFFFFFFFFFFFFE8000000000000000 1) 0) 1 .signed = true ∧ (readW (st 0xFFFFFFFFFFFFFFFE8000000000000000 1) 0).getLsbD 127 = true ∧
    testovf (lowmask 127) 1 .signed = true ∧ (lowmask 127).getLsbD 127 = false ∧
    testovf 0 64 .signed = false ∧
    (Fields.ofCommand 0x1000000404100000).op = 0x04 ∧ (Fields.ofCommand 0x1000000404100000).s = 0 := by decide

theorem test_hyp_TovfWritesOvf :
    (st 0xFFFFFFFFFFFFFFFE8000000000000000 0).cause = .none ∧ Fmt.Valid ⟨2, 1⟩ ∧ Fmt.Valid ⟨64, 1⟩ ∧ Fmt.Valid ⟨0, 1⟩ ∧
    canonical (readW (st 0xFFFFFFFFFFFFFFFE8000000000000000 0) 0) ⟨2, 1⟩ .signed = true ∧ (Instr.tovf 0 .signed ⟨2, 1⟩ (-1)).wellFormed = false ∧
    ¬ OperandsCanonical (.tovf 0 .signed ⟨8, 0⟩ 4) (st 0xFFFFFFFFFFFFFFFE8000000000000000 0) := by decide

theorem test_hyp_AddIsExact :
    (st 0xC0000000000000000000000000000000 0xC0000000000000000000000000000000).cause = .none ∧ Fmt.Valid ⟨63, 0⟩ ∧
    canonical (readW (st 0xC0000000000000000000000000000000 0xC0000000000000000000000000000000) 0) ⟨63, 0⟩ .signed = true ∧ canonical (readW (st 0xC0000000000000000000000000000000 0xC0000000000000000000000000000000) 1) ⟨63, 0⟩ .signed = true ∧
    canonical (readW (st 0 1) 0) ⟨63, 0⟩ .unsigned = true ∧ (Instr.add 2 0 1 .signed ⟨64, 0⟩ ⟨63, 0⟩).wellFormed = false ∧
    ¬ OperandsCanonical (.add 2 0 1 .signed ⟨62, 0⟩ ⟨63, 0⟩) (st 0xC0000000000000000000000000000000 0xC0000000000000000000000000000000) := by decide

theorem test_hyp_SubIsExactOrWraps :
    (st 0xC0000000000000000000000000000000 0xC0000000000000000000000000000000).cause = .none ∧ Fmt.Valid ⟨63, 0⟩ ∧
    canonical (readW (st 0xC0000000000000000000000000000000 0xC0000000000000000000000000000000) 0) ⟨63, 0⟩ .signed = true ∧ canonical (readW (st 0xC0000000000000000000000000000000 0xC0000000000000000000000000000000) 1) ⟨63, 0⟩ .signed = true ∧
    canonical (readW (st 0 1) 0) ⟨63, 0⟩ .unsigned = true ∧ (Instr.sub 2 0 1 .signed ⟨64, 0⟩ ⟨63, 0⟩).wellFormed = false ∧
    ¬ OperandsCanonical (.sub 2 0 1 .signed ⟨62, 0⟩ ⟨63, 0⟩) (st 0xC0000000000000000000000000000000 0xC0000000000000000000000000000000) := by decide

theorem test_hyp_NegNegatesOrWraps :
    (st (bit 127) (bit 64)).cause = .none ∧ Fmt.Valid ⟨64, 0⟩ ∧
    canonical (readW (st (bit 127) (bit 64)) 0) ⟨64, 0⟩ .signed = true ∧
    sval (readW (st (bit 127) (bit 64)) 0) = -2 ^ topBit 64 ∧
    canonical (readW (st (bit 127) (bit 64)) 1) ⟨64, 0⟩ .signed = true ∧
    (Fields.ofCommand 0x2880010400000000).op = 0x0A ∧ (Fields.ofCommand 0x2880010400000000).s = 0 ∧
    sval (readW (st (bit 127) (bit 64)) 1) ≠ -2 ^ topBit 64 ∧ (Instr.neg 2 0 ⟨65, 0⟩).wellFormed = false ∧
    ¬ OperandsCanonical (.neg 2 0 ⟨63, 0⟩) (st (bit 127) (bit 64)) := by decide

theorem test_hyp_MulIsExact :
    (st 0xFFFFFFFF800000000000000000000000 0xFFFFFFFF800000000000000000000000).cause = .none ∧ Fmt.Valid ⟨32, 31⟩ ∧ Fmt.Valid ⟨32, 32⟩ ∧
    canonical (readW (st 0xFFFFFFFF800000000000000000000000 0xFFFFFFFF800000000000000000000000) 0) ⟨32, 31⟩ .signed = true ∧
    canonical (readW (st 0xFFFFFFFF800000000000000000000000 0xFFFFFFFF800000000000000000000000) 1) ⟨32, 32⟩ .signed = true ∧
    (Instr.mul 2 0 1 .signed ⟨33, 31⟩ ⟨32, 32⟩).wellFormed = false ∧
    ((Instr.mul 2 0 1 .signed ⟨31, 31⟩ ⟨32, 32⟩).wellFormed = true ∧
      ¬ OperandsCanonical (.mul 2 0 1 .signed ⟨31, 31⟩ ⟨32, 32⟩) (st 0xFFFFFFFF800000000000000000000000 0xFFFFFFFF800000000000000000000000)) := by decide

theorem test_hyp_DivTruncatesTowardZero :
    (st 0xFFFFFFFFFFFFFFF80000000000000000 0xFFFFFFFFFFFFFFFFF000000000000000).cause = .none ∧
    Fmt.Valid ⟨4, 8⟩ ∧ Fmt.Valid ⟨4, 4⟩ ∧
    canonical (readW (st 0xFFFFFFFFFFFFFFF80000000000000000 0xFFFFFFFFFFFFFFFFF000000000000000) 0) ⟨4, 8⟩ .signed = true ∧
    canonical (readW (st 0xFFFFFFFFFFFFFFF80000000000000000 0xFFFFFFFFFFFFFFFFF000000000000000) 1) ⟨4, 4⟩ .signed = true ∧
    readW (st 0xFFFFFFFFFFFFFFF80000000000000000 0xFFFFFFFFFFFFFFFFF000000000000000) 1 ≠ 0 ∧
    value (readW (st 0xFFFFFFFFFFFFFFF80000000000000000 0xFFFFFFFFFFFFFFFFF000000000000000) 0) .signed = -2 ^ topBit 4 ∧
    value (readW (st 0xFFFFFFFFFFFFFFF80000000000000000 0xFFFFFFFFFFFFFFFFF000000000000000) 1) .signed = -2 ^ lowBit 4 ∧
    (Instr.div 2 0 1 .signed ⟨4, 4⟩ ⟨4, 8⟩).wellFormed = false := by decide

theorem test_hyp_DivTruncatesTowardZero_zero_divisor :
    canonical (readW (st (bit 64) 0) 0) ⟨64, 0⟩ .signed = true ∧
    canonical (readW (st (bit 64) 0) 1) ⟨64, 0⟩ .signed = true ∧ readW (st (bit 64) 0) 1 = 0 ∧
    (Instr.div 2 0 1 .signed ⟨64, 0⟩ ⟨64, 0⟩).wellFormed = true ∧
    ¬ OperandsCanonical (.div 2 0 1 .signed ⟨1, 0⟩ ⟨64, 0⟩) (st (bit 64) 0) := by decide

theorem test_hyp_CmpComparesUnsigned :
    (st 0xFFFFFFFFFFFFFFFE8000000000000000 0).cause = .none ∧ Fmt.Valid ⟨2, 1⟩ ∧ canonical (readW (st 0xFFFFFFFFFFFFFFFE8000000000000000 0) 0) ⟨2, 1⟩ .signed = true ∧
    canonical (readW (st 0xFFFFFFFFFFFFFFFE8000000000000000 0) 1) ⟨2, 1⟩ .signed = true ∧ (Instr.cmp 0 1 .signed ⟨0, 0⟩).wellFormed = false ∧
    ¬ OperandsCanonical (.cmp 1 0 .signed ⟨8, 0⟩) (st 0xFFFFFFFFFFFFFFFE8000000000000000 0) := by decide

theorem test_hyp_SixRelationsFromTwoFlags :
    (st 0 0xFFFFFFFFFFFFFFFE8000000000000000).cause = .none ∧ Fmt.Valid ⟨2, 1⟩ ∧ canonical (readW (st 0 0xFFFFFFFFFFFFFFFE8000000000000000) 0) ⟨2, 1⟩ .signed = true ∧
    canonical (readW (st 0 0xFFFFFFFFFFFFFFFE8000000000000000) 1) ⟨2, 1⟩ .signed = true ∧
    ∃ t, exec (.cmp 0 1 .signed ⟨2, 1⟩) (st 0 0xFFFFFFFFFFFFFFFE8000000000000000) = .next t :=
  ⟨by decide, by decide, by decide, by decide, _, rfl⟩

theorem test_hyp_CmpOrderAgainstNumericOrder :
    (st 0xFFFFFFFFFFFFFFFE8000000000000000 0).cause = .none ∧ Fmt.Valid ⟨2, 1⟩ ∧ canonical (readW (st 0xFFFFFFFFFFFFFFFE8000000000000000 0) 0) ⟨2, 1⟩ .signed = true ∧
    canonical (readW (st 0xFFFFFFFFFFFFFFFE8000000000000000 0) 1) ⟨2, 1⟩ .signed = true ∧
    (readW (st 0xFFFFFFFFFFFFFFFE8000000000000000 0) 0).getLsbD 127 ≠ (readW (st 0xFFFFFFFFFFFFFFFE8000000000000000 0) 1).getLsbD 127 ∧
    canonical (readW (st 0xFFFFFFFFFFFFFFFE8000000000000000 0) 1) ⟨2, 1⟩ .unsigned = true := by decide

theorem test_hyp_SignedOrderFromSub :
    (st 0xC0000000000000000000000000000000 0xC0000000000000000000000000000000).cause = .none ∧ Fmt.Valid ⟨63, 0⟩ ∧
    canonical (readW (st 0xC0000000000000000000000000000000 0xC0000000000000000000000000000000) 0) ⟨63, 0⟩ .signed = true ∧ canonical (readW (st 0xC0000000000000000000000000000000 0xC0000000000000000000000000000000) 1) ⟨63, 0⟩ .signed = true := by decide

theorem test_hyp_MulPathsAgree :
    Fmt.Valid ⟨16, 16⟩ ∧ Fmt.Valid ⟨32, 31⟩ ∧ Fmt.Valid ⟨32, 32⟩ ∧ Fmt.Valid ⟨40, 30⟩ ∧ Fmt.Valid ⟨20, 20⟩ ∧
    mulPath ⟨16, 16⟩ ⟨16, 16⟩ = .narrow ∧ mulPath ⟨32, 31⟩ ⟨32, 32⟩ = .widen ∧ mulPath ⟨40, 30⟩ ⟨20, 20⟩ = .full ∧
    canonical 0xFFFFFFFFFFFF80000000000000000000 ⟨16, 16⟩ .signed = true ∧
    canonical 0xFFFFFFFF800000000000000000000000 ⟨32, 31⟩ .signed = true ∧ canonical 0xFFFFFFFF800000000000000000000000 ⟨32, 32⟩ .signed = true ∧
    canonical 0xFFFFFF80000000000000000000000000 ⟨40, 30⟩ .signed = true ∧
    canonical 0xFFFFFFFFFFF800000000000000000000 ⟨20, 20⟩ .signed = true := by decide

theorem test_hyp_CanonicalWordsAreRepresentableValues :
    Fmt.Valid ⟨-62, 63⟩ ∧ Fmt.Valid ⟨64, 63⟩ ∧ Fmt.Valid ⟨1, 0⟩ ∧ Fmt.Valid ⟨64, 0⟩ := by decide

theorem test_hyp_FracmaskRoundsDown : (63 : Nat) ≤ 63 := by decide

theorem test_hyp_NormFloorsAndWraps : Fmt.Valid ⟨-62, 63⟩ ∧ Fmt.Valid ⟨64, 0⟩ := by decide

theorem test_hyp_OverflowTest :
    Fmt.Valid ⟨64, 63⟩ ∧ canonical (bit 127) ⟨64, 63⟩ .signed = true ∧ (127 : Nat) < 128 := by decide

theorem test_hyp_CanonicalWords :
    Fmt.Valid ⟨8, 8⟩ ∧ Fmt.Valid ⟨16, 8⟩ ∧ canonical 0xFFFFFFFFFFFFFFFE8000000000000000 ⟨8, 8⟩ .signed = true := by decide

theorem test_hyp_ExtCopiesSignBit :
    (-62 : Int) ≤ -62 ∧ (64 : Int) ≤ 64 ∧ (127 : Nat) < 128 := by decide

theorem test_hyp_RoundHalfUp :
    sval 0xFFFFFFFFFFFFFFFE8000000000000000 + 2 ^ (63 - 0) < 2 ^ 127 ∧ sval (lowmask 126) + 2 ^ (63 - 63) < 2 ^ 127 ∧
    uval (lowmask 127) + 2 ^ (63 - 0) < 2 ^ 128 := by decide

theorem test_hyp_SaturateClamps :
    Fmt.Valid ⟨1, 0⟩ ∧ testovf 0 1 .signed = false ∧ testovf (bit 127) 1 .signed = true ∧
    (bit 127).getLsbD 127 = true ∧ testovf (bit 64) 1 .signed = true ∧ (bit 64).getLsbD 127 = false := by decide

theorem test_hyp_RoundTowardZero : (0 : Nat) ≤ 63 := by decide

theorem test_hyp_ShiftLeftAgreesWithLimbs : (0 : Nat) < 128 ∧ (64 : Nat) < 128 ∧ (127 : Nat) < 128 := by decide

theorem test_hyp_ShiftRightAgreesWithLimbs : (0 : Nat) < 128 ∧ (64 : Nat) < 128 ∧ (127 : Nat) < 128 := by decide

theorem test_hyp_MaskBuilders : (0 : Nat) < 128 ∧ (127 : Nat) < 128 := by decide

theorem test_hyp_WordDivideTruncates :
    (bit 127) ≠ 0 ∧ Fmt.Valid ⟨64, 63⟩ ∧ canonical (bit 127) ⟨64, 63⟩ .signed = true := by decide

theorem test_hyp_ShiftAmountsInRange :
    Fmt.Valid ⟨63, 0⟩ ∧ (63 : Int) ≤ 63 ∧ (Instr.mul 0 0 0 .signed ⟨1, 31⟩ ⟨1, 32⟩).wellFormed = true ∧
    (Instr.div 0 0 0 .signed ⟨1, 63⟩ ⟨1, 63⟩).wellFormed = true := by decide

theorem test_hyp_InvariantKeptByStep :
    Inv { State.reset with feed := [.issue 0x0870000000000000 0] } ∧
    ∃ t, step { State.reset with feed := [.issue 0x0870000000000000 0] } = .next t :=
  ⟨⟨fun _ => rfl, fun r => ⟨⟨1, 0⟩, .signed, by decide, by revert r; decide⟩⟩, _, rfl⟩

theorem test_hyp_WrittenWordIsCanonical :
    ∃ t, exec (.div 2 0 1 .signed ⟨4, 8⟩ ⟨4, 4⟩)
        (st 0xFFFFFFFFFFFFFFF80000000000000000 0xFFFFFFFFFFFFFFFFF000000000000000) = .next t ∧ t.cause = .none :=
  ⟨_, rfl, by decide⟩

end Sys2Proof.Tests
end

section
/-! The scope statements: what one step of a run is (spec/00_scope.md R9, R11). -/

namespace Sys2Proof.Machine

/-- An issued word that decodes runs as its instruction, on the state with the word and its data on the ports.
The width condition plays no part here: `exec` checks it itself. -/
theorem step_of_issue_decode {s : State} {c : Command} {d : Word} {rest : List HostEvent} {i : Instr}
    (hfeed : s.feed = .issue c d :: rest) (hdec : decode c = .ok i) :
    step s = exec i (present s c d rest) := by
  have hcmd : decode (present s c d rest).cmd = .ok i := by rw [present_cmd, hdec]
  calc step s = hostAction s rest (.issue c d) := step_of_action hfeed
    _ = runPort (present s c d rest) := rfl
    _ = exec i (present s c d rest) := runPort_of_decode hcmd

/-- Settles O6: the step on an issued word is `runPort` on the presented state, and `present` is the record
update that the statement writes out. -/
theorem stepRunsDecodedInstruction : Obligations.StepRunsDecodedInstruction := by
  intro s c d rest i hfeed hdec _
  exact step_of_issue_decode hfeed hdec

end Sys2Proof.Machine
end

section
/-! The format logic in bits: what `fracmask`, `ext` and `norm` leave at each bit position, which words are
canonical, and which results are canonical by construction (spec/41_format_logic.md R102 to R111). -/

namespace Sys2Proof.Machine

/-- In a valid format the lowest declared bit does not lie above the top one, and both are bits of the word. -/
theorem bit_bounds_of_valid {f : Fmt} (hf : f.Valid) :
    lowBit f.frac ≤ topBit f.int ∧ topBit f.int < 128 ∧ aboveTop f.int = topBit f.int + 1 := by
  obtain ⟨hint, hsum, hfrac⟩ := hf
  unfold lowBit topBit aboveTop
  omega

/-- The complement of `lowmask n` has the bits from `n` up (R87). -/
theorem getLsbD_not_lowmask {n : Nat} (h : n < 128) {j : Nat} (hj : j < 128) :
    (~~~ lowmask n).getLsbD j = decide (n ≤ j) := by
  rw [BitVec.getLsbD_not, getLsbD_lowmask h]
  simp [hj, ← decide_not]

/-- The fractional mask clears the bits below `64 - F` and keeps the others (R104). -/
theorem getLsbD_fracmask (w : Word) (frac : Nat) {j : Nat} (hj : j < 128) :
    (fracmask w frac).getLsbD j = (w.getLsbD j && decide (lowBit frac ≤ j)) := by
  have hlow : lowBit frac < 128 := by unfold lowBit; omega
  rw [fracmask, BitVec.getLsbD_and, getLsbD_not_lowmask hlow hj]

/-- `ext` keeps the bits up to `63 + I`; above them it copies the sign bit or puts zero (R105). -/
theorem getLsbD_ext {f : Fmt} (hf : f.Valid) (w : Word) (sg : Sign) {j : Nat} (hj : j < 128) :
    (ext w f.int sg).getLsbD j =
      if j ≤ topBit f.int then w.getLsbD j else (decide (sg = .signed) && w.getLsbD (topBit f.int)) := by
  obtain ⟨-, -, habove⟩ := bit_bounds_of_valid hf
  by_cases h64 : f.int = 64
  · have hle : j ≤ topBit f.int := by unfold topBit; omega
    rw [ext, if_pos h64, if_pos hle]
  · have hmask : aboveTop f.int < 128 := by have := hf.1; unfold aboveTop; omega
    rw [ext, if_neg h64]
    by_cases hsign : sg = .signed ∧ w.getLsbD (topBit f.int) = true
    · rw [if_pos hsign, BitVec.getLsbD_or, getLsbD_not_lowmask hmask hj, hsign.1, hsign.2]
      by_cases hj' : j ≤ topBit f.int
      · simp [hj', show ¬ aboveTop f.int ≤ j by omega]
      · simp [hj', show aboveTop f.int ≤ j by omega]
    · rw [if_neg hsign, BitVec.getLsbD_and, getLsbD_lowmask hmask]
      by_cases hj' : j ≤ topBit f.int
      · simp [hj', show j < aboveTop f.int by omega]
      · simpa [hj', show ¬ j < aboveTop f.int by omega] using hsign

/-- `norm` in bits: zero below `64 - F`, the declared bits as they are, the sign bit or zero above them (R106). -/
theorem getLsbD_norm {f : Fmt} (hf : f.Valid) (w : Word) (sg : Sign) {j : Nat} (hj : j < 128) :
    (norm w f sg).getLsbD j =
      if j ≤ topBit f.int then w.getLsbD j && decide (lowBit f.frac ≤ j)
      else (decide (sg = .signed) && w.getLsbD (topBit f.int)) := by
  obtain ⟨hlow, htop, -⟩ := bit_bounds_of_valid hf
  rw [norm, getLsbD_ext hf _ _ hj, getLsbD_fracmask _ _ hj, getLsbD_fracmask _ _ htop]
  simp [hlow]

/-- A word is canonical when the bits below `64 - F` are zero and those above `63 + I` copy the sign bit, or are
zero when the format is unsigned (R107). -/
theorem canonical_iff_bits {w : Word} {f : Fmt} {sg : Sign} (hf : f.Valid) :
    canonical w f sg = true ↔
      (∀ j, j < lowBit f.frac → w.getLsbD j = false) ∧
      (∀ j, topBit f.int < j → j < 128 →
        w.getLsbD j = (decide (sg = .signed) && w.getLsbD (topBit f.int))) := by
  obtain ⟨hlow, htop, -⟩ := bit_bounds_of_valid hf
  rw [canonical_iff]
  constructor
  · intro h
    have hbit : ∀ j, j < 128 → w.getLsbD j = (norm w f sg).getLsbD j := fun _ _ => by rw [h]
    constructor
    · intro j hj
      rw [hbit j (by omega), getLsbD_norm hf _ _ (by omega), if_pos (by omega)]
      simp [hj]
    · intro j hj hj'
      rw [hbit j hj', getLsbD_norm hf _ _ hj', if_neg (by omega)]
  · intro ⟨hzero, hcopy⟩
    apply BitVec.eq_of_getLsbD_eq
    intro j hj
    rw [getLsbD_norm hf _ _ hj]
    split_ifs with hle
    · by_cases hj' : lowBit f.frac ≤ j
      · simp [hj']
      · simp [hzero j (by omega)]
    · exact (hcopy j (by omega) hj).symm

/-- `norm` always gives a canonical word (R107). -/
theorem canonical_norm {f : Fmt} (hf : f.Valid) (w : Word) (sg : Sign) : canonical (norm w f sg) f sg = true := by
  obtain ⟨hlow, htop, -⟩ := bit_bounds_of_valid hf
  refine (canonical_iff_bits hf).2 ⟨fun j hj => ?_, fun j hj hj' => ?_⟩
  · rw [getLsbD_norm hf _ _ (by omega), if_pos (by omega)]
    simp [hj]
  · rw [getLsbD_norm hf _ _ hj', if_neg (by omega), getLsbD_norm hf _ _ htop, if_pos le_rfl]
    simp [hlow]

/-- Zero is canonical under every valid format (R107). -/
theorem canonical_zero {f : Fmt} (hf : f.Valid) (sg : Sign) : canonical 0 f sg = true := by
  simp [canonical_iff_bits hf]

/-- Every conversion gives a canonical word, whatever its rounding (R110). -/
theorem canonical_convert {f : Fmt} (hf : f.Valid) (w : Word) (rm : Rounding) (sg : Sign) :
    canonical (convert w f rm sg) f sg = true := canonical_norm hf _ sg

/-- The mask makes a word canonical as soon as its bits above `63 + I` copy the sign bit. -/
theorem canonical_fracmask {f : Fmt} (hf : f.Valid) {w : Word}
    (hcopy : ∀ j, topBit f.int < j → j < 128 → w.getLsbD j = w.getLsbD (topBit f.int)) :
    canonical (fracmask w f.frac) f .signed = true := by
  obtain ⟨hlow, htop, -⟩ := bit_bounds_of_valid hf
  refine (canonical_iff_bits hf).2 ⟨fun j hj => ?_, fun j hj hj' => ?_⟩
  · rw [getLsbD_fracmask _ _ (by omega)]
    simp [hj]
  · rw [getLsbD_fracmask _ _ hj', getLsbD_fracmask _ _ htop, hcopy j hj hj']
    have : lowBit f.frac ≤ j := by omega
    simp [hlow, this]

/-- A word that does not overflow has its bits from `63 + I` up all alike (R108). -/
theorem getLsbD_eq_of_testovf_false {f : Fmt} (hf : f.Valid) {w : Word}
    (h : testovf w f.int .signed = false) {j : Nat} (hj : topBit f.int < j) (hj' : j < 128) :
    w.getLsbD j = w.getLsbD (topBit f.int) := by
  obtain ⟨hlow, htop, -⟩ := bit_bounds_of_valid hf
  have hpos : 128 - topBit f.int < 128 := by have := hf.2.2; unfold lowBit at hlow; omega
  have hfield : ∀ k, w.getLsbD (topBit f.int + k) = (shrU w (topBit f.int)).getLsbD k := fun k => by
    rw [shrU_of_lt w htop, BitVec.getLsbD_ushiftRight]
  have halike : shrU w (topBit f.int) = 0 ∨ shrU w (topBit f.int) = lowmask (128 - topBit f.int) := by
    simpa [testovf, or_iff_not_imp_left] using h
  obtain ⟨k, rfl⟩ := Nat.exists_eq_add_of_le hj.le
  rw [hfield k, ← Nat.add_zero (topBit f.int), hfield 0, Nat.add_zero]
  rcases halike with hzero | hones
  · simp [hzero]
  · rw [hones, getLsbD_lowmask hpos, getLsbD_lowmask hpos, decide_eq_true (by omega), decide_eq_true (by omega)]

/-- Saturation gives a canonical word (R111): each clamp, and a word that needs none, copies its sign bit. -/
theorem canonical_saturate {f : Fmt} (hf : f.Valid) (w : Word) : canonical (saturate w f) f .signed = true := by
  obtain ⟨-, htop, -⟩ := bit_bounds_of_valid hf
  apply canonical_fracmask hf
  intro j hj hj'
  split_ifs with hovf hneg
  · rw [getLsbD_not_lowmask htop hj', getLsbD_not_lowmask htop htop]
    simp [hj.le]
  · rw [getLsbD_lowmask htop, getLsbD_lowmask htop]
    simp [hj.le]
  · exact getLsbD_eq_of_testovf_false hf (by simpa using hovf) hj hj'

end Sys2Proof.Machine
end

section
/-! The product word of MUL is canonical under `<IA+IB, FA+FB>` (spec/44_mul.md R150, R151): canonical operands
have stored integers of `IA+FA` and `IB+FB` bits, so the product of the two needs no more than the declared bits
of the result format, and the last shift puts it there without loss. -/

namespace Sys2Proof.Machine

/-- The bits above `n` copy bit `n` exactly when the signed reading lies in `[-2^n, 2^n)`. -/
theorem signCopied_iff_sval_range {w : Word} {n : Nat} (hn : n < 128) :
    (∀ j, n < j → j < 128 → w.getLsbD j = w.getLsbD n) ↔ -2 ^ n ≤ sval w ∧ sval w < 2 ^ n := by
  constructor
  · intro hcopy
    have hext : w = (w.setWidth (n + 1)).signExtend 128 := by
      apply BitVec.eq_of_getLsbD_eq
      intro j hj
      rw [BitVec.getLsbD_signExtend, BitVec.msb_eq_getLsbD_last, BitVec.getLsbD_setWidth,
        BitVec.getLsbD_setWidth]
      by_cases hle : j < n + 1
      · simp [hj, hle]
      · rw [hcopy j (by omega) hj]
        simp [hle, hj]
    have hval : sval w = (w.setWidth (n + 1)).toInt := by
      rw [sval, hext, BitVec.toInt_signExtend_of_le (by omega), ← hext]
    rw [hval]
    exact ⟨BitVec.le_toInt _, BitVec.toInt_lt⟩
  · intro ⟨hlo, hhi⟩ j hj hj'
    have hext : w = (BitVec.ofInt (n + 1) (sval w)).signExtend 128 := by
      apply BitVec.eq_of_toInt_eq
      rw [BitVec.toInt_signExtend_of_le (by omega), BitVec.toInt_ofInt_eq_self (by omega) hlo hhi, sval]
    rw [hext, BitVec.getLsbD_signExtend, BitVec.getLsbD_signExtend, BitVec.msb_eq_getLsbD_last]
    simp [hj', hn, show ¬ j < n + 1 by omega]

/-- The bits from `n` up are zero exactly when the unsigned reading is below `2^n`. -/
theorem highZero_iff_uval_lt {w : Word} {n : Nat} :
    (∀ j, n ≤ j → j < 128 → w.getLsbD j = false) ↔ uval w < 2 ^ n := by
  constructor
  · intro hzero
    apply Nat.lt_pow_two_of_testBit
    intro j hj
    by_cases hj' : j < 128
    · exact hzero j hj hj'
    · exact BitVec.getLsbD_of_ge w j (by omega)
  · intro hlt j hj _
    exact Nat.testBit_lt_two_pow (hlt.trans_le (Nat.pow_le_pow_right (by omega) hj))

/-- A left shift by `n` clears the bits below `n` (R81). -/
theorem getLsbD_shl_of_lt (w : Word) {n : Nat} (hn : n < 128) {j : Nat} (hj : j < n) :
    (shl w n).getLsbD j = false := by
  rw [shl_of_lt w hn, BitVec.getLsbD_shiftLeft]
  simp [hj]

/-- One less than the number of declared bits, `I + F - 1`: the magnitude bits of a signed stored integer. -/
def magnitudeBits (f : Fmt) : Nat := topBit f.int - lowBit f.frac

theorem topBit_eq_magnitudeBits_add {f : Fmt} (hf : f.Valid) : topBit f.int = magnitudeBits f + lowBit f.frac := by
  have := (bit_bounds_of_valid hf).1
  unfold magnitudeBits
  omega

/-- The stored integer of a canonical signed word fits the declared bits (R102, R103). -/
theorem sval_stored_range {f : Fmt} (hf : f.Valid) {x : Word} (hx : canonical x f .signed = true) :
    -2 ^ magnitudeBits f ≤ sval (stored x f.frac .signed) ∧
      sval (stored x f.frac .signed) < 2 ^ magnitudeBits f := by
  obtain ⟨hlow, htop, -⟩ := bit_bounds_of_valid hf
  obtain ⟨-, hcopy⟩ := (canonical_iff_bits hf).1 hx
  obtain ⟨hlo, hhi⟩ := (signCopied_iff_sval_range htop).1 (by simpa using hcopy)
  have hstored : sval (stored x f.frac .signed) = sval x / 2 ^ lowBit f.frac := by
    rw [stored, shr, shrS_of_lt x (by omega), sval, BitVec.toInt_sshiftRight, Int.shiftRight_eq_div_pow, sval]
    norm_cast
  have hpos : (0 : Int) < 2 ^ lowBit f.frac := by positivity
  rw [topBit_eq_magnitudeBits_add hf, pow_add] at hlo hhi
  rw [hstored, Int.le_ediv_iff_mul_le hpos, Int.ediv_lt_iff_lt_mul hpos]
  exact ⟨by linarith, hhi⟩

/-- The stored integer of a canonical unsigned word fits the declared bits (R102, R103). -/
theorem uval_stored_lt {f : Fmt} (hf : f.Valid) {x : Word} (hx : canonical x f .unsigned = true) :
    uval (stored x f.frac .unsigned) < 2 ^ (magnitudeBits f + 1) := by
  obtain ⟨hlow, htop, -⟩ := bit_bounds_of_valid hf
  obtain ⟨-, hzero⟩ := (canonical_iff_bits hf).1 hx
  have hlt : uval x < 2 ^ (topBit f.int + 1) :=
    highZero_iff_uval_lt.1 fun j hj hj' => by simpa using hzero j hj hj'
  rw [stored, shr, shrU_of_lt x (by omega), uval, BitVec.toNat_ushiftRight, Nat.shiftRight_eq_div_pow,
    Nat.div_lt_iff_lt_mul (by positivity), ← pow_add]
  rwa [topBit_eq_magnitudeBits_add hf, add_right_comm] at hlt

/-- A product of two integers in `[-2^m, 2^m)` and `[-2^n, 2^n)` lies in `[-2^(m+n), 2^(m+n)]`. -/
theorem mul_range {x y : Int} {m n : Nat} (hx : -2 ^ m ≤ x ∧ x < 2 ^ m) (hy : -2 ^ n ≤ y ∧ y < 2 ^ n) :
    -2 ^ (m + n) ≤ x * y ∧ x * y ≤ 2 ^ (m + n) := by
  have hxabs : |x| ≤ 2 ^ m := abs_le.2 ⟨hx.1, hx.2.le⟩
  have hyabs : |y| ≤ 2 ^ n := abs_le.2 ⟨hy.1, hy.2.le⟩
  rw [← abs_le, abs_mul, pow_add]
  exact mul_le_mul hxabs hyabs (abs_nonneg y) (by positivity)

/-- The signed reading of a product moved up by `n` bits, where it fits the word (R89, R151). -/
theorem sval_shl_wmul {a b : Word} {n : Nat} (hn : n < 128)
    (hlo : -2 ^ 127 ≤ sval a * sval b * 2 ^ n) (hhi : sval a * sval b * 2 ^ n < 2 ^ 127) :
    sval (shl (wmul a b) n) = sval a * sval b * 2 ^ n := by
  have hword : shl (wmul a b) n = BitVec.ofInt 128 (sval a * sval b * 2 ^ n) := by
    have hpow : BitVec.ofInt 128 (2 ^ n) = BitVec.twoPow 128 n := by
      have hcast : ((2 ^ n : Nat) : Int) = 2 ^ n := by norm_cast
      rw [← hcast, BitVec.ofInt_natCast]
      exact BitVec.eq_of_toNat_eq (by rw [BitVec.toNat_ofNat, BitVec.toNat_twoPow])
    rw [shl_of_lt _ hn, wmul, BitVec.shiftLeft_eq_mul_twoPow, BitVec.ofInt_mul, BitVec.ofInt_mul, hpow,
      sval, sval, BitVec.ofInt_toInt, BitVec.ofInt_toInt]
  rw [hword, sval, BitVec.toInt_ofInt_eq_self (by omega) hlo hhi]

/-- The unsigned reading of a product moved up by `n` bits, where it fits the word (R89, R151). -/
theorem uval_shl_wmul {a b : Word} {n : Nat} (hn : n < 128) (hlt : uval a * uval b * 2 ^ n < 2 ^ 128) :
    uval (shl (wmul a b) n) = uval a * uval b * 2 ^ n := by
  rw [shl_of_lt _ hn, wmul, uval, BitVec.toNat_shiftLeft, BitVec.toNat_mul, Nat.shiftLeft_eq, Nat.mod_mul_mod]
  exact Nat.mod_eq_of_lt hlt

/-- The declared bits of MUL's result format are those of its two operands together (R150). -/
theorem topBit_mulFmt {fa fb : Fmt} (ha : fa.Valid) (hb : fb.Valid) (hab : (mulFmt fa fb).Valid) :
    topBit (mulFmt fa fb).int = magnitudeBits fa + magnitudeBits fb + 1 + lowBit (mulFmt fa fb).frac := by
  obtain ⟨-, haw, hafrac⟩ := ha
  obtain ⟨-, hbw, hbfrac⟩ := hb
  obtain ⟨-, -, hfrac⟩ := hab
  simp only [mulFmt, magnitudeBits, topBit, lowBit] at *
  omega

/-- The word MUL writes for two operand words, by R151's formula. -/
def productWord (fa fb : Fmt) (sg : Sign) (x y : Word) : Word :=
  shl (wmul (stored x fa.frac sg) (stored y fb.frac sg)) (lowBit (mulFmt fa fb).frac)

section productWord
variable {fa fb : Fmt} (ha : fa.Valid) (hb : fb.Valid) (hab : (mulFmt fa fb).Valid) {x y : Word}
include ha hb hab

/-- Signed, the product word stays inside its result format: one bit less than its declared bits would do. -/
theorem sval_productWord_range (hx : canonical x fa .signed = true) (hy : canonical y fb .signed = true) :
    -2 ^ topBit (mulFmt fa fb).int ≤ sval (productWord fa fb .signed x y) ∧
      sval (productWord fa fb .signed x y) < 2 ^ topBit (mulFmt fa fb).int := by
  obtain ⟨hlow, htop, -⟩ := bit_bounds_of_valid hab
  obtain ⟨hlo, hhi⟩ := mul_range (sval_stored_range ha hx) (sval_stored_range hb hy)
  have hshift : (0 : Int) < 2 ^ lowBit (mulFmt fa fb).frac := by positivity
  have hroom : (0 : Int) < 2 ^ (magnitudeBits fa + magnitudeBits fb) := by positivity
  have htopPow : (2 : Int) ^ topBit (mulFmt fa fb).int =
      2 ^ (magnitudeBits fa + magnitudeBits fb) * 2 * 2 ^ lowBit (mulFmt fa fb).frac := by
    rw [topBit_mulFmt ha hb hab, pow_add, pow_succ]
  have hword : (2 : Int) ^ topBit (mulFmt fa fb).int ≤ 2 ^ 127 := pow_le_pow_right₀ (by norm_num) (by omega)
  have hlo' : -2 ^ topBit (mulFmt fa fb).int ≤
      sval (stored x fa.frac .signed) * sval (stored y fb.frac .signed) * 2 ^ lowBit (mulFmt fa fb).frac := by
    nlinarith
  have hhi' : sval (stored x fa.frac .signed) * sval (stored y fb.frac .signed) *
      2 ^ lowBit (mulFmt fa fb).frac < 2 ^ topBit (mulFmt fa fb).int := by
    nlinarith
  rw [productWord, sval_shl_wmul (by omega) (by linarith) (by linarith)]
  exact ⟨hlo', hhi'⟩

/-- Unsigned, the product word has no bit above the declared ones. -/
theorem uval_productWord_lt (hx : canonical x fa .unsigned = true) (hy : canonical y fb .unsigned = true) :
    uval (productWord fa fb .unsigned x y) < 2 ^ (topBit (mulFmt fa fb).int + 1) := by
  obtain ⟨hlow, htop, -⟩ := bit_bounds_of_valid hab
  have hword : 2 ^ (topBit (mulFmt fa fb).int + 1) ≤ 2 ^ 128 := Nat.pow_le_pow_right (by omega) (by omega)
  have hlt : uval (stored x fa.frac .unsigned) * uval (stored y fb.frac .unsigned) *
      2 ^ lowBit (mulFmt fa fb).frac < 2 ^ (topBit (mulFmt fa fb).int + 1) := by
    calc uval (stored x fa.frac .unsigned) * uval (stored y fb.frac .unsigned) * 2 ^ lowBit (mulFmt fa fb).frac
        < 2 ^ (magnitudeBits fa + 1) * 2 ^ (magnitudeBits fb + 1) * 2 ^ lowBit (mulFmt fa fb).frac :=
          Nat.mul_lt_mul_of_pos_right (Nat.mul_lt_mul'' (uval_stored_lt ha hx) (uval_stored_lt hb hy))
            (by positivity)
      _ = 2 ^ (topBit (mulFmt fa fb).int + 1) := by
          rw [topBit_mulFmt ha hb hab]
          ring
  rwa [productWord, uval_shl_wmul (by omega) (hlt.trans_le hword)]

/-- MUL's result is canonical under its result format: the product needs no bit above the declared ones (R151). -/
theorem canonical_productWord {sg : Sign} (hx : canonical x fa sg = true) (hy : canonical y fb sg = true) :
    canonical (productWord fa fb sg x y) (mulFmt fa fb) sg = true := by
  obtain ⟨hlow, htop, -⟩ := bit_bounds_of_valid hab
  refine (canonical_iff_bits hab).2 ⟨fun j hj => getLsbD_shl_of_lt _ (by omega) hj, ?_⟩
  cases sg with
  | signed => simpa using (signCopied_iff_sval_range htop).2 (sval_productWord_range ha hb hab hx hy)
  | unsigned =>
    intro j hj hj'
    simpa using highZero_iff_uval_lt.2 (uval_productWord_lt ha hb hab hx hy) j hj hj'

end productWord

end Sys2Proof.Machine
end

section
/-! What one command does, said once: the fault it takes or the one write it makes, each a function of the words
it reads, and `exec` as fault entry or that write (spec/10_state.md R23; 60_exceptions.md R194 to R196). -/

namespace Sys2Proof.Machine

/-- The one write of a command that completes (R9, R23). -/
inductive Effect where
  /-- A value register takes a word. -/
  | register (rd : Reg) (v : Word)
  /-- `DOUT` takes a word. -/
  | dataOut (v : Word)
  /-- `EQ` and `LT` take the comparison of two words. -/
  | compare (x y : Word)
  /-- `OVF` takes the outcome of an overflow test. -/
  | overflow (b : Bool)

/-- The state after the write. -/
def Effect.apply (s : State) : Effect → State
  | .register rd v => writeW s rd v
  | .dataOut v => writeDout s v
  | .compare x y => writeCompare s x y
  | .overflow b => writeOvf s b

/-- The register that the write changes, where it changes one. -/
def Effect.target : Effect → Option Reg
  | .register rd _ => some rd
  | .dataOut _ => none
  | .compare _ _ => none
  | .overflow _ => none

/-- The write a command makes when it takes no fault, from the register words and the word on the data-in bus. -/
def effect (ρ : Reg → Word) (din : Word) : Instr → Effect
  | .putTrn rd sg fb => .register rd (convert din fb .trn sg)
  | .putRnd rd sg fb => .register rd (convert din fb .rnd sg)
  | .putRtz rd sg fb => .register rd (convert din fb .rtz sg)
  | .get ra => .dataOut (ρ ra)
  | .cvtTrn rd ra sg _ fb => .register rd (convert (ρ ra) fb .trn sg)
  | .cvtRnd rd ra sg _ fb => .register rd (convert (ρ ra) fb .rnd sg)
  | .cvtRtz rd ra sg _ fb => .register rd (convert (ρ ra) fb .rtz sg)
  | .sat rd ra _ fb => .register rd (saturate (ρ ra) fb)
  | .tovf ra sg _ it => .overflow (testovf (ρ ra) it sg)
  | .add rd ra rb sg fa fb => .register rd (norm (wadd (ρ ra) (ρ rb)) (addFmt fa fb) sg)
  | .sub rd ra rb sg fa fb => .register rd (norm (wsub (ρ ra) (ρ rb)) (addFmt fa fb) sg)
  | .neg rd ra fa => .register rd (norm (wneg (ρ ra)) fa .signed)
  | .mul rd ra rb sg fa fb => .register rd (productWord fa fb sg (ρ ra) (ρ rb))
  | .div rd ra rb sg fa fb => .register rd (norm (shl (wdiv (stored (ρ ra) fa.frac sg) (stored (ρ rb) fb.frac sg) sg)
      (lowBit (divFmt fa fb).frac)) (divFmt fa fb) sg)
  | .cmp ra rb _ _ => .compare (ρ ra) (ρ rb)

/-- The fault that a command raises in an ALU that is not faulted, or none: `ILL` before `NCN` before `DBZ` (R194). -/
def verdict (ρ : Reg → Word) (i : Instr) : Cause :=
  if i.wellFormed = false then .ill
  else if ∀ p ∈ readsUnder i, canonical (ρ p.1) p.2.1 p.2.2 = true then
    if ∀ r ∈ divisor i, ρ r ≠ 0 then .none else .dbz
  else .ncn

/-- The body of a command: the fault of its operands, or the state after its write. -/
def commandBody (i : Instr) (s : State) : Except Cause State :=
  if OperandsCanonical i s then
    if DivisorNotZero i s then .ok ((effect (readW s) s.din i).apply s) else .error .dbz
  else .error .ncn

/-- What follows the operand check runs on a canonical word, and is passed over with `NCN` on any other. -/
theorem need_bind {α : Type} (w : Word) (f : Fmt) (sg : Sign) (k : Word → Except Cause α) :
    (need w f sg >>= k) = if canonical w f sg = true then k w else .error .ncn := by
  by_cases h : canonical w f sg = true
  · rw [need_of_canonical h, if_pos h]
    rfl
  · rw [need_of_not_canonical (by simpa using h), if_neg h]
    rfl

/-- What follows the divisor test runs on a word that is not zero, and is passed over with `DBZ` on zero. -/
theorem needDivisor_bind {α : Type} (y : Word) (k : Word → Except Cause α) :
    (needDivisor y >>= k) = if y ≠ 0 then k y else .error .dbz := by
  by_cases h : y = 0
  · rw [needDivisor_eq_error.2 ⟨h, rfl⟩, if_neg (by simpa using h)]
    rfl
  · rw [needDivisor_eq_ok.2 ⟨h, rfl⟩, if_pos h]
    rfl

section commandBody
variable {i : Instr} {s : State} {ra rb : Reg} {fa fb : Fmt} {sg : Sign}

theorem divisorNotZero_of_none (hdiv : divisor i = none) : DivisorNotZero i s := by
  simp only [DivisorNotZero, hdiv]
  simp

theorem divisorNotZero_iff_of_some (hdiv : divisor i = some rb) : DivisorNotZero i s ↔ readW s rb ≠ 0 := by
  simp only [DivisorNotZero, hdiv]
  simp

/-- The body of a command with one operand under a format and no divisor. -/
theorem commandBody_of_one_operand (hreads : readsUnder i = [(ra, fa, sg)]) (hdiv : divisor i = none) :
    commandBody i s = if canonical (readW s ra) fa sg = true then .ok ((effect (readW s) s.din i).apply s)
      else .error .ncn := by
  simp only [commandBody, OperandsCanonical, hreads, if_pos (divisorNotZero_of_none hdiv)]
  simp

/-- The body of a command with two operands under formats and no divisor: the left one is checked first. -/
theorem commandBody_of_two_operands (hreads : readsUnder i = [(ra, fa, sg), (rb, fb, sg)])
    (hdiv : divisor i = none) :
    commandBody i s = if canonical (readW s ra) fa sg = true then
        if canonical (readW s rb) fb sg = true then .ok ((effect (readW s) s.din i).apply s) else .error .ncn
      else .error .ncn := by
  simp only [commandBody, OperandsCanonical, hreads, if_pos (divisorNotZero_of_none hdiv)]
  simp [ite_and]

/-- The body of a command that divides by its second operand. -/
theorem commandBody_of_divisor (hreads : readsUnder i = [(ra, fa, sg), (rb, fb, sg)])
    (hdiv : divisor i = some rb) :
    commandBody i s = if canonical (readW s ra) fa sg = true then
        if canonical (readW s rb) fb sg = true then
          if readW s rb ≠ 0 then .ok ((effect (readW s) s.din i).apply s) else .error .dbz
        else .error .ncn
      else .error .ncn := by
  simp only [commandBody, OperandsCanonical, hreads, divisorNotZero_iff_of_some hdiv]
  simp [ite_and]

end commandBody

/-- Every arm of `exec` runs the body that the tables of R23, R52 and R193 and the write of the command describe. -/
theorem exec_eq_runCommand (i : Instr) (s : State) : exec i s = runCommand i s (commandBody i s) := by
  cases i with
  | putTrn rd sg fb => rfl
  | putRnd rd sg fb => rfl
  | putRtz rd sg fb => rfl
  | get ra => rfl
  | cvtTrn rd ra sg fa fb => rw [commandBody_of_one_operand rfl rfl, exec, execCvtTrn, cvtBody, need_bind]; rfl
  | cvtRnd rd ra sg fa fb => rw [commandBody_of_one_operand rfl rfl, exec, execCvtRnd, cvtBody, need_bind]; rfl
  | cvtRtz rd ra sg fa fb => rw [commandBody_of_one_operand rfl rfl, exec, execCvtRtz, cvtBody, need_bind]; rfl
  | sat rd ra fa fb => rw [commandBody_of_one_operand rfl rfl, exec, execSat, need_bind]; rfl
  | tovf ra sg fa it => rw [commandBody_of_one_operand rfl rfl, exec, execTovf, need_bind]; rfl
  | neg rd ra fa => rw [commandBody_of_one_operand rfl rfl, exec, execNeg, need_bind]; rfl
  | add rd ra rb sg fa fb =>
    rw [commandBody_of_two_operands rfl rfl, exec, execAdd, need_bind, need_bind]; rfl
  | sub rd ra rb sg fa fb =>
    rw [commandBody_of_two_operands rfl rfl, exec, execSub, need_bind, need_bind]; rfl
  | mul rd ra rb sg fa fb =>
    rw [commandBody_of_two_operands rfl rfl, exec, execMul, need_bind, need_bind]; rfl
  | cmp ra rb sg fa =>
    rw [commandBody_of_two_operands rfl rfl, exec, execCmp, need_bind, need_bind]; rfl
  | div rd ra rb sg fa fb =>
    rw [commandBody_of_divisor rfl rfl, exec, execDiv, need_bind, need_bind, needDivisor_bind]; rfl

/-- A faulted ALU ignores every command (R196). -/
theorem exec_of_faulted {i : Instr} {s : State} (hs : s.cause ≠ .none) : exec i s = .next s := by
  rw [exec_eq_runCommand, runCommand_of_faulted hs]

/-- A command whose verdict is no fault makes its one write. -/
theorem exec_of_verdict_none {i : Instr} {s : State} (hs : s.cause = .none)
    (hv : verdict (readW s) i = .none) : exec i s = .next ((effect (readW s) s.din i).apply s) := by
  unfold verdict at hv
  split_ifs at hv with hill hncn hdbz
  rw [exec_eq_runCommand, commandBody, if_pos hncn, if_pos hdbz, runCommand_of_ok hs (by simpa using hill)]

/-- A command whose verdict is a fault takes that fault. -/
theorem exec_of_verdict_ne_none {i : Instr} {s : State} (hs : s.cause = .none)
    (hv : verdict (readW s) i ≠ .none) : exec i s = .next (faultEntry (verdict (readW s) i) s) := by
  unfold verdict at hv ⊢
  rw [exec_eq_runCommand]
  split_ifs at hv ⊢ with hill hncn hdbz
  · rw [runCommand_of_ill hs hill]
  · exact absurd rfl hv
  · rw [commandBody, if_pos hncn, if_neg hdbz, runCommand_of_error hs (by simpa using hill)]
  · rw [commandBody, if_neg hncn, runCommand_of_error hs (by simpa using hill)]

/-- Everything one command can do: be ignored, take the fault of its verdict, or make its write. -/
theorem exec_cases {i : Instr} {s t : State} (h : exec i s = .next t) :
    (s.cause ≠ .none ∧ t = s) ∨
    (s.cause = .none ∧ verdict (readW s) i ≠ .none ∧ t = faultEntry (verdict (readW s) i) s) ∨
    (s.cause = .none ∧ verdict (readW s) i = .none ∧ t = (effect (readW s) s.din i).apply s) := by
  by_cases hs : s.cause = .none
  · by_cases hv : verdict (readW s) i = .none
    · rw [exec_of_verdict_none hs hv] at h
      exact .inr (.inr ⟨hs, hv, (Host.Outcome.next.inj h).symm⟩)
    · rw [exec_of_verdict_ne_none hs hv] at h
      exact .inr (.inl ⟨hs, hv, (Host.Outcome.next.inj h).symm⟩)
  · rw [exec_of_faulted hs] at h
    exact .inl ⟨hs, (Host.Outcome.next.inj h).symm⟩

end Sys2Proof.Machine
end

section
/-! What the one write of a command changes, and on which words it and the verdict depend
(spec/10_state.md R22, R23, R25, R28). -/

namespace Sys2Proof.Machine

section apply
variable (s : State) (e : Effect)

@[simp] theorem apply_toInputs : (e.apply s).toInputs = s.toInputs := by cases e <;> rfl
@[simp] theorem apply_cause : (e.apply s).cause = s.cause := by cases e <;> rfl
@[simp] theorem apply_fcmd : (e.apply s).fcmd = s.fcmd := by cases e <;> rfl

variable {s e}

/-- The write leaves every register but its target alone. -/
theorem readW_apply_of_ne_target {r : Reg} (h : e.target ≠ some r) : readW (e.apply s) r = readW s r := by
  cases e with
  | register rd v => exact readW_writeW_other s rd v fun hr => h (by rw [hr]; rfl)
  | dataOut v => rfl
  | compare x y => rfl
  | overflow b => rfl

/-- The write makes its target hold one word, whatever the state. -/
theorem exists_readW_apply_of_target {r : Reg} (h : e.target = some r) :
    ∃ v, e = .register r v ∧ ∀ t, readW (e.apply t) r = v := by
  cases e with
  | register rd v =>
    obtain rfl : rd = r := Option.some.inj h
    exact ⟨v, rfl, fun t => readW_writeW_same t rd v⟩
  | dataOut v => cases h
  | compare x y => cases h
  | overflow b => cases h

/-- The registers after the write are a function of those before it. -/
theorem apply_w_congr {t : State} (h : s.w = t.w) : (e.apply s).w = (e.apply t).w := by
  cases e with
  | register rd v => exact congrArg (·.set rd v) h
  | dataOut v => exact h
  | compare x y => exact h
  | overflow b => exact h

end apply

section effect
variable {ρ : Reg → Word} {din : Word} {i : Instr}

/-- A command writes the register that R23's table names. -/
theorem target_effect (ρ : Reg → Word) (din : Word) (i : Instr) :
    (effect ρ din i).target = (writes i).map (·.1) := by
  cases i <;> rfl

theorem target_effect_of_mem_writes {p : Reg × Fmt × Sign} (hp : p ∈ writes i) :
    (effect ρ din i).target = some p.1 := by
  rw [target_effect, Option.mem_def.1 hp, Option.map_some]

/-- Only CMP writes `EQ` and `LT` (R25). -/
theorem effect_flags_of_ne_cmp (h : i.mnemonic ≠ "CMP") (s : State) :
    ((effect ρ din i).apply s).flagEq = s.flagEq ∧ ((effect ρ din i).apply s).flagLt = s.flagLt := by
  cases i with
  | cmp => exact absurd rfl h
  | _ => exact ⟨rfl, rfl⟩

/-- Only TOVF writes `OVF` (R25). -/
theorem effect_flagOvf_of_ne_tovf (h : i.mnemonic ≠ "TOVF") (s : State) :
    ((effect ρ din i).apply s).flagOvf = s.flagOvf := by
  cases i with
  | tovf => exact absurd rfl h
  | _ => rfl

/-- Only GET writes `DOUT` (R28). -/
theorem effect_dout_of_ne_get (h : i.mnemonic ≠ "GET") (s : State) :
    ((effect ρ din i).apply s).dout = s.dout := by
  cases i with
  | get => exact absurd rfl h
  | _ => rfl

/-- The write of CMP is a comparison. -/
theorem effect_of_cmp (h : i.mnemonic = "CMP") : ∃ x y, effect ρ din i = .compare x y := by
  cases i with
  | cmp => exact ⟨_, _, rfl⟩
  | _ => simp [Instr.mnemonic] at h

/-- The write of TOVF is an overflow flag. -/
theorem effect_of_tovf (h : i.mnemonic = "TOVF") : ∃ b, effect ρ din i = .overflow b := by
  cases i with
  | tovf => exact ⟨_, rfl⟩
  | _ => simp [Instr.mnemonic] at h

/-- The write of GET is to `DOUT`. -/
theorem effect_of_get (h : i.mnemonic = "GET") : ∃ v, effect ρ din i = .dataOut v := by
  cases i with
  | get => exact ⟨_, rfl⟩
  | _ => simp [Instr.mnemonic] at h

variable {ρ' : Reg → Word}

/-- A command reads no register under a format but its sources (R23, R52). -/
theorem mem_sources_of_mem_readsUnder {p : Reg × Fmt × Sign} (hp : p ∈ readsUnder i) : p.1 ∈ sources i := by
  have hsub : (readsUnder i).map (·.1) ⊆ sources i := by cases i <;> simp [readsUnder, sources]
  exact hsub (List.mem_map_of_mem hp)

/-- The divisor is a source (R23, R193). -/
theorem mem_sources_of_mem_divisor {r : Reg} (hr : r ∈ divisor i) : r ∈ sources i := by
  cases i with
  | div => simp_all [divisor, sources]
  | _ => cases hr

/-- The verdict depends on no register but the sources. -/
theorem verdict_congr (h : ∀ r ∈ sources i, ρ' r = ρ r) : verdict ρ' i = verdict ρ i := by
  have hreads : (∀ p ∈ readsUnder i, canonical (ρ' p.1) p.2.1 p.2.2 = true) ↔
      ∀ p ∈ readsUnder i, canonical (ρ p.1) p.2.1 p.2.2 = true :=
    forall₂_congr fun p hp => by rw [h _ (mem_sources_of_mem_readsUnder hp)]
  have hdiv : (∀ r ∈ divisor i, ρ' r ≠ 0) ↔ ∀ r ∈ divisor i, ρ r ≠ 0 :=
    forall₂_congr fun r hr => by rw [h _ (mem_sources_of_mem_divisor hr)]
  simp only [verdict, hreads, hdiv]

/-- The write depends on no register but the sources. -/
theorem effect_congr (h : ∀ r ∈ sources i, ρ' r = ρ r) : effect ρ' din i = effect ρ din i := by
  cases i <;> simp_all [sources, effect]

/-- A command without a fault passes R60 and has canonical operands. -/
theorem wellFormed_and_canonical_of_verdict_none (h : verdict ρ i = .none) :
    i.wellFormed = true ∧ ∀ p ∈ readsUnder i, canonical (ρ p.1) p.2.1 p.2.2 = true := by
  unfold verdict at h
  split_ifs at h with hill hncn
  exact ⟨by simpa using hill, hncn⟩

/-- The result format of a well-formed command is valid (R57, R60). -/
theorem writes_valid (hi : i.wellFormed = true) {p : Reg × Fmt × Sign} (hp : p ∈ writes i) : p.2.1.Valid := by
  cases i with
  | get => cases hp
  | tovf => cases hp
  | cmp => cases hp
  | _ =>
    obtain rfl := Option.some.inj hp
    simp only [Instr.wellFormed, decide_eq_true_eq, Fmt.Valid, addFmt, mulFmt, divFmt] at hi ⊢
    omega

/-- The word a command writes is canonical under its result format (R22). -/
theorem canonical_of_effect_register (hv : verdict ρ i = .none) {p : Reg × Fmt × Sign} (hp : p ∈ writes i)
    {v : Word} (he : effect ρ din i = .register p.1 v) : canonical v p.2.1 p.2.2 = true := by
  obtain ⟨hi, hreads⟩ := wellFormed_and_canonical_of_verdict_none hv
  have hvalid := writes_valid hi hp
  cases i with
  | get => cases hp
  | tovf => cases hp
  | cmp => cases hp
  | mul rd ra rb sg fa fb =>
    obtain rfl := Option.some.inj hp
    obtain ⟨-, rfl⟩ := Effect.register.inj he
    obtain ⟨ha, hb, -⟩ : fa.Valid ∧ fb.Valid ∧ _ := by simpa [Instr.wellFormed] using hi
    exact canonical_productWord ha hb hvalid (hreads (ra, fa, sg) (by simp [readsUnder]))
      (hreads (rb, fb, sg) (by simp [readsUnder]))
  | sat =>
    obtain rfl := Option.some.inj hp
    obtain ⟨-, rfl⟩ := Effect.register.inj he
    exact canonical_saturate hvalid _
  | _ =>
    obtain rfl := Option.some.inj hp
    obtain ⟨-, rfl⟩ := Effect.register.inj he
    exact canonical_norm hvalid _ _

end effect

end Sys2Proof.Machine
end

section
/-! The statements on the state: frames, noninterference, the invariant and the outputs (spec/10_state.md R20 to
R32; 60_exceptions.md R190, R198). -/

namespace Sys2Proof.Machine

/-- The register words of two states with one register file. -/
theorem readW_congr {s t : State} (h : s.w = t.w) : readW s = readW t := by
  funext r
  rw [readW, readW, h]

/-- What a command that completes changes: the register, flags or `DOUT` that are its own (R23, R25, R28). -/
theorem effect_frame (i : Instr) (s : State) (ρ : Reg → Word) (din : Word) :
    (∀ r, (writes i).map (·.1) ≠ some r → readW ((effect ρ din i).apply s) r = readW s r) ∧
    (i.mnemonic ≠ "CMP" →
      ((effect ρ din i).apply s).flagEq = s.flagEq ∧ ((effect ρ din i).apply s).flagLt = s.flagLt) ∧
    (i.mnemonic ≠ "TOVF" → ((effect ρ din i).apply s).flagOvf = s.flagOvf) ∧
    (i.mnemonic ≠ "GET" → ((effect ρ din i).apply s).dout = s.dout) ∧
    SameInputs s ((effect ρ din i).apply s) := by
  refine ⟨fun r hr => readW_apply_of_ne_target (by rwa [target_effect]), fun h => effect_flags_of_ne_cmp h s,
    fun h => effect_flagOvf_of_ne_tovf h s, fun h => effect_dout_of_ne_get h s, ?_⟩
  simp [SameInputs]

/-- Settles O17: an ignored command and a fault entry change nothing of what the frame speaks of, and a completed
command makes its one write. -/
theorem commandsWriteOnlyTheirOwn : Obligations.CommandsWriteOnlyTheirOwn := by
  intro i s t hexec
  rcases exec_cases hexec with ⟨-, rfl⟩ | ⟨-, -, rfl⟩ | ⟨-, -, rfl⟩
  · simp [SameInputs]
  · simp [SameInputs]
  · exact effect_frame i s _ _

/-- What a completed command writes is the same whatever flags, `DOUT` and `FCMD` held. -/
theorem effect_write_congr {i : Instr} {s1 s2 : State} {ρ : Reg → Word} {din : Word} :
    (i.mnemonic = "CMP" →
      ((effect ρ din i).apply s1).flagEq = ((effect ρ din i).apply s2).flagEq ∧
      ((effect ρ din i).apply s1).flagLt = ((effect ρ din i).apply s2).flagLt) ∧
    (i.mnemonic = "TOVF" → ((effect ρ din i).apply s1).flagOvf = ((effect ρ din i).apply s2).flagOvf) ∧
    (i.mnemonic = "GET" → ((effect ρ din i).apply s1).dout = ((effect ρ din i).apply s2).dout) := by
  refine ⟨fun h => ?_, fun h => ?_, fun h => ?_⟩
  · obtain ⟨x, y, he⟩ := effect_of_cmp (ρ := ρ) (din := din) h
    rw [he]
    exact ⟨rfl, rfl⟩
  · obtain ⟨b, he⟩ := effect_of_tovf (ρ := ρ) (din := din) h
    rw [he]
    rfl
  · obtain ⟨v, he⟩ := effect_of_get (ρ := ρ) (din := din) h
    rw [he]
    rfl

/-- Settles O18: the verdict and the write are functions of the registers and `din` alone, so the two states are
ignored, fault or complete together. -/
theorem flagsAndDoutAreNeverRead : Obligations.FlagsAndDoutAreNeverRead := by
  intro i s1 s2 t1 t2 hw hcause hdin h1 h2
  have hread : readW s2 = readW s1 := readW_congr hw.symm
  by_cases hs : s1.cause = .none
  · have hs2 : s2.cause = .none := hcause ▸ hs
    by_cases hv : verdict (readW s1) i = .none
    · rw [exec_of_verdict_none hs hv] at h1
      rw [exec_of_verdict_none hs2 (hread ▸ hv), hread, ← hdin] at h2
      obtain rfl := Host.Outcome.next.inj h1
      obtain rfl := Host.Outcome.next.inj h2
      obtain ⟨hcmp, htovf, hget⟩ := effect_write_congr (i := i) (s1 := s1) (s2 := s2)
      exact ⟨apply_w_congr hw, by simp [hcause], fun _ => hcmp, fun _ => htovf, fun _ => hget,
        fun _ hne => absurd (by simpa using hs) hne⟩
    · rw [exec_of_verdict_ne_none hs hv] at h1
      rw [exec_of_verdict_ne_none hs2 (hread ▸ hv), hread] at h2
      obtain rfl := Host.Outcome.next.inj h1
      obtain rfl := Host.Outcome.next.inj h2
      exact ⟨hw, rfl, fun hnone => absurd hnone hv, fun hnone => absurd hnone hv,
        fun hnone => absurd hnone hv, fun _ _ hcmd => hcmd⟩
  · rw [exec_of_faulted hs] at h1
    rw [exec_of_faulted (hcause ▸ hs)] at h2
    obtain rfl := Host.Outcome.next.inj h1
    obtain rfl := Host.Outcome.next.inj h2
    exact ⟨hw, hcause, fun hnone => absurd hnone hs, fun hnone => absurd hnone hs,
      fun hnone => absurd hnone hs, fun hnone => absurd hnone hs⟩

/-- The flags and `DOUT` after a write do not depend on the registers before it. -/
theorem apply_flags_dout_of_setW (e : Effect) (s : State) (w' : Vector Word 8) :
    (e.apply { s with w := w' }).flagEq = (e.apply s).flagEq ∧
    (e.apply { s with w := w' }).flagLt = (e.apply s).flagLt ∧
    (e.apply { s with w := w' }).flagOvf = (e.apply s).flagOvf ∧
    (e.apply { s with w := w' }).dout = (e.apply s).dout := by
  cases e <;> exact ⟨rfl, rfl, rfl, rfl⟩

/-- The destination register after a completed command does not depend on the state the write is made in. -/
theorem readW_effect_of_mem_writes {i : Instr} {ρ : Reg → Word} {din : Word} {p : Reg × Fmt × Sign}
    (hp : p ∈ writes i) (s t : State) :
    readW ((effect ρ din i).apply s) p.1 = readW ((effect ρ din i).apply t) p.1 := by
  obtain ⟨v, -, hv⟩ := exists_readW_apply_of_target (target_effect_of_mem_writes hp)
  rw [hv s, hv t]

/-- Settles O19: the verdict and the write are functions of the source words, so the two states fault alike or
make the same write. -/
theorem onlySourceRegistersMatter : Obligations.OnlySourceRegistersMatter := by
  intro i s w' t1 t2 hs hsources h1 h2
  have hs' : ({ s with w := w' } : State).cause = .none := hs
  have hverdict : verdict (readW { s with w := w' }) i = verdict (readW s) i := verdict_congr hsources
  have heffect : effect (readW { s with w := w' }) s.din i = effect (readW s) s.din i := effect_congr hsources
  by_cases hv : verdict (readW s) i = .none
  · rw [exec_of_verdict_none hs hv] at h1
    rw [exec_of_verdict_none hs' (hverdict.trans hv), heffect] at h2
    obtain rfl := Host.Outcome.next.inj h1
    obtain rfl := Host.Outcome.next.inj h2
    obtain ⟨heq, hlt, hovf, hdout⟩ := apply_flags_dout_of_setW (effect (readW s) s.din i) s w'
    exact ⟨by simp, heq, hlt, hovf, hdout, fun _ p hp => readW_effect_of_mem_writes hp _ _⟩
  · rw [exec_of_verdict_ne_none hs hv] at h1
    rw [exec_of_verdict_ne_none hs' (by rwa [hverdict]), hverdict] at h2
    obtain rfl := Host.Outcome.next.inj h1
    obtain rfl := Host.Outcome.next.inj h2
    exact ⟨rfl, rfl, rfl, rfl, rfl, fun hnone => absurd hnone hv⟩

/-- After a completed command the destination register is canonical under the result format (R22). -/
theorem canonical_readW_effect {i : Instr} {s : State} (hv : verdict (readW s) i = .none)
    {p : Reg × Fmt × Sign} (hp : p ∈ writes i) :
    canonical (readW ((effect (readW s) s.din i).apply s) p.1) p.2.1 p.2.2 = true := by
  obtain ⟨v, he, hread⟩ := exists_readW_apply_of_target (target_effect_of_mem_writes hp)
  rw [hread s]
  exact canonical_of_effect_register hv hp he

/-- Settles O59: a state without a fault is one in which the command completed. -/
theorem writtenWordIsCanonical : Obligations.WrittenWordIsCanonical := by
  intro i s t hs hexec ht p hp
  rcases exec_cases hexec with ⟨hfaulted, -⟩ | ⟨-, hv, rfl⟩ | ⟨-, hv, rfl⟩
  · exact absurd hs hfaulted
  · exact absurd ht hv
  · exact canonical_readW_effect hv hp

/-- The invariant speaks of `CAUSE`, `FCMD` and the registers only. -/
theorem inv_of_sameAlu {s t : State} (hinv : Inv s) (h : SameAlu s t) : Inv t := by
  obtain ⟨a, inputs⟩ := t
  obtain rfl : a = s.toAlu := h
  exact hinv

/-- Settles O57: `FCMD` is zero, and every register is zero, which is canonical under every valid format. -/
theorem invariantAtReset : Obligations.InvariantAtReset :=
  ⟨fun _ => rfl, fun r => ⟨⟨1, 0⟩, .signed, by decide, readW_reset r ▸ canonical_zero (by decide) _⟩⟩

/-- Fault entry keeps the invariant: the registers stay, and a fault is recorded now. -/
theorem inv_faultEntry {s : State} (hinv : Inv s) {c : Cause} (hc : c ≠ .none) : Inv (faultEntry c s) :=
  ⟨fun hnone => absurd hnone hc, hinv.2⟩

/-- A completed command keeps the invariant: it writes a word canonical under its own valid result format. -/
theorem inv_apply_effect {i : Instr} {s : State} (hinv : Inv s) (hv : verdict (readW s) i = .none) :
    Inv ((effect (readW s) s.din i).apply s) := by
  obtain ⟨hfcmd, hcanonical⟩ := hinv
  refine ⟨by simpa using hfcmd, fun r => ?_⟩
  by_cases hr : (writes i).map (·.1) = some r
  · obtain ⟨p, hp, rfl⟩ := Option.map_eq_some_iff.1 hr
    have hvalid := writes_valid (wellFormed_and_canonical_of_verdict_none hv).1 hp
    exact ⟨p.2.1, p.2.2, hvalid, canonical_readW_effect hv hp⟩
  · rw [readW_apply_of_ne_target (by rwa [target_effect])]
    exact hcanonical r

/-- Every command keeps the invariant. -/
theorem exec_preserves_inv {i : Instr} {s t : State} (hinv : Inv s) (hexec : exec i s = .next t) : Inv t := by
  rcases exec_cases hexec with ⟨-, rfl⟩ | ⟨-, hv, rfl⟩ | ⟨-, hv, rfl⟩
  · exact hinv
  · exact inv_faultEntry hinv hv
  · exact inv_apply_effect hinv hv

/-- Rejecting a word that matches no row keeps the invariant. -/
theorem rejectCommand_preserves_inv {s t : State} (hinv : Inv s) (h : rejectCommand s = .next t) : Inv t := by
  obtain rfl : raise .ill s = t := Host.Outcome.next.inj h
  by_cases hs : s.cause = .none
  · rw [raise_of_not_faulted hs]
    exact inv_faultEntry hinv (by decide)
  · rwa [raise_of_faulted hs]

/-- Whatever word is on the command port, the port keeps the invariant. -/
theorem runPort_preserves_inv {s t : State} (hinv : Inv s) (h : runPort s = .next t) : Inv t := by
  cases hdec : decode s.cmd with
  | ok i => exact exec_preserves_inv hinv (runPort_of_decode hdec ▸ h)
  | error e => exact rejectCommand_preserves_inv hinv (runPort_of_error hdec ▸ h)

/-- Every action of the host keeps the invariant. -/
theorem hostAction_preserves_inv {s t : State} {rest : List HostEvent} {e : HostEvent} (hinv : Inv s)
    (h : hostAction s rest e = .next t) : Inv t := by
  cases e with
  | issue cmd din => exact runPort_preserves_inv (inv_of_sameAlu hinv (present_toAlu s cmd din rest)) h
  | reset =>
    obtain rfl := Host.Outcome.next.inj h
    exact inv_of_sameAlu invariantAtReset rfl
  | issueCutByReset cmd din =>
    obtain rfl := Host.Outcome.next.inj h
    exact inv_of_sameAlu invariantAtReset rfl

/-- Settles O58: an idle step holds the state, and every action of the host keeps the invariant. -/
theorem invariantKeptByStep : Obligations.InvariantKeptByStep := by
  intro s t hinv hstep
  cases hfeed : s.feed with
  | nil =>
    obtain rfl := Host.Outcome.next.inj ((step_of_idle hfeed).symm.trans hstep)
    exact hinv
  | cons e rest => exact hostAction_preserves_inv hinv ((step_of_action hfeed).symm.trans hstep)

/-- The bits of three flags put beside each other, the last one lowest. -/
theorem getLsbD_three_flags : ∀ ovf lt eq : Bool,
    (BitVec.ofBool ovf ++ BitVec.ofBool lt ++ BitVec.ofBool eq).getLsbD 0 = eq ∧
    (BitVec.ofBool ovf ++ BitVec.ofBool lt ++ BitVec.ofBool eq).getLsbD 1 = lt ∧
    (BitVec.ofBool ovf ++ BitVec.ofBool lt ++ BitVec.ofBool eq).getLsbD 2 = ovf := by
  decide

/-- The cause that a 2-bit code names (R190). -/
def causeOfCode (code : BitVec 2) : Cause :=
  if code = 0 then .none else if code = 1 then .ill else if code = 2 then .ncn else .dbz

theorem causeOfCode_code (c : Cause) : causeOfCode c.code = c := by
  cases c <;> rfl

/-- The code of a cause tells the causes apart (R190). -/
theorem code_injective : Function.Injective Cause.code := Function.LeftInverse.injective causeOfCode_code

/-- Settles O60: the status bits are the flags, and the code of a cause names it. -/
theorem outputsReadTheState : Obligations.OutputsReadTheState := by
  intro s
  obtain ⟨heq, hlt, hovf⟩ := getLsbD_three_flags s.flagOvf s.flagLt s.flagEq
  refine ⟨heq, hlt, hovf, code_injective.eq_iff' rfl, code_injective.eq_iff' rfl, code_injective.eq_iff' rfl,
    code_injective.eq_iff' rfl, ?_⟩
  have hnone : causeOut s = 0 ↔ s.cause = .none := code_injective.eq_iff' rfl
  rw [Ne, hnone, faultOut]
  split_ifs with h <;> simp [h]

end Sys2Proof.Machine
end

section
/-! The order of a run: no command reads the actions to come, a step takes the host's next action off the feed, and
R20's state after it is a function of R20's state before it and of that action (spec/10_state.md R20; 20_memory.md
R45; 00_scope.md R11; log 1). -/

namespace Sys2Proof.Machine

/-- Fault entry is a change of R20's state by the word on the command port, and keeps the inputs. -/
theorem faultEntry_mk (c : Cause) (a : Alu) (inputs : Inputs) :
    faultEntry c ⟨a, inputs⟩ = ⟨{ a with cause := c, fcmd := inputs.cmd }, inputs⟩ := rfl

/-- The write of a command is a change of R20's state alone. -/
theorem exists_apply_eq (e : Effect) (a : Alu) :
    ∃ b : Alu, ∀ inputs : Inputs, e.apply ⟨a, inputs⟩ = ⟨b, inputs⟩ := by
  cases e with
  | register rd v => exact ⟨{ a with w := a.w.set rd v }, fun _ => rfl⟩
  | dataOut v => exact ⟨{ a with dout := v }, fun _ => rfl⟩
  | compare x y => exact ⟨{ a with flagEq := x == y, flagLt := wlt x y }, fun _ => rfl⟩
  | overflow b => exact ⟨{ a with flagOvf := b }, fun _ => rfl⟩

section
variable (a : Alu) (cmd : Command) (din : Word)

/-- A command answers one state of R20 whatever actions are to come, and keeps the inputs. -/
theorem exists_exec_eq_next (i : Instr) :
    ∃ b : Alu, ∀ feed, exec i ⟨a, ⟨cmd, din, feed⟩⟩ = .next ⟨b, ⟨cmd, din, feed⟩⟩ := by
  have hread (feed) : readW ⟨a, ⟨cmd, din, feed⟩⟩ = readW ⟨a, ⟨cmd, din, []⟩⟩ := readW_congr rfl
  by_cases hs : a.cause = .none
  · by_cases hv : verdict (readW ⟨a, ⟨cmd, din, []⟩⟩) i = .none
    · obtain ⟨b, hb⟩ := exists_apply_eq (effect (readW ⟨a, ⟨cmd, din, []⟩⟩) din i) a
      refine ⟨b, fun feed => ?_⟩
      rw [exec_of_verdict_none hs (by rwa [hread]), hread, hb]
    · refine ⟨{ a with cause := verdict (readW ⟨a, ⟨cmd, din, []⟩⟩) i, fcmd := cmd }, fun feed => ?_⟩
      rw [exec_of_verdict_ne_none hs (by rwa [hread]), hread, faultEntry_mk]
  · exact ⟨a, fun feed => exec_of_faulted hs⟩

/-- Rejecting a word answers one state of R20 whatever actions are to come, and keeps the inputs. -/
theorem exists_rejectCommand_eq_next :
    ∃ b : Alu, ∀ feed, rejectCommand ⟨a, ⟨cmd, din, feed⟩⟩ = .next ⟨b, ⟨cmd, din, feed⟩⟩ := by
  by_cases hs : a.cause = .none
  · refine ⟨{ a with cause := .ill, fcmd := cmd }, fun feed => ?_⟩
    rw [rejectCommand_of_not_faulted hs, faultEntry_mk]
  · refine ⟨a, fun feed => ?_⟩
    rw [rejectCommand, raise_of_faulted hs]

/-- The command port answers one state of R20 whatever actions are to come, and keeps the inputs. -/
theorem exists_runPort_eq_next :
    ∃ b : Alu, ∀ feed, runPort ⟨a, ⟨cmd, din, feed⟩⟩ = .next ⟨b, ⟨cmd, din, feed⟩⟩ := by
  cases hdec : decode cmd with
  | ok i =>
    obtain ⟨b, hb⟩ := exists_exec_eq_next a cmd din i
    refine ⟨b, fun feed => ?_⟩
    rw [runPort_of_decode (s := ⟨a, ⟨cmd, din, feed⟩⟩) hdec, hb]
  | error e =>
    obtain ⟨b, hb⟩ := exists_rejectCommand_eq_next a cmd din
    refine ⟨b, fun feed => ?_⟩
    rw [runPort_of_error (s := ⟨a, ⟨cmd, din, feed⟩⟩) hdec, hb]

/-- The command port runs R11's step function on R20's state and keeps the inputs. -/
theorem runPort_eq_aluStep (feed : List HostEvent) :
    runPort ⟨a, ⟨cmd, din, feed⟩⟩ = .next ⟨aluStep a cmd din, ⟨cmd, din, feed⟩⟩ := by
  obtain ⟨b, hb⟩ := exists_runPort_eq_next a cmd din
  have hstep : aluStep a cmd din = b := by rw [aluStep, hb]
  rw [hb, hstep]

end

/-- R20's state after one action of the host, from R20's state before it. -/
def actionAlu (a : Alu) : HostEvent → Alu
  | .issue cmd din => aluStep a cmd din
  | .reset => Alu.reset
  | .issueCutByReset _ _ => Alu.reset

/-- Every action of the host answers a next state: R20's state is `actionAlu`, and the feed is the rest. -/
theorem hostAction_answers (s : State) (rest : List HostEvent) (e : HostEvent) :
    ∃ t, hostAction s rest e = .next t ∧ t.toAlu = actionAlu s.toAlu e ∧ t.feed = rest := by
  cases e with
  | issue cmd din => exact ⟨_, runPort_eq_aluStep s.toAlu cmd din rest, rfl, rfl⟩
  | reset => exact ⟨_, rfl, rfl, rfl⟩
  | issueCutByReset cmd din => exact ⟨_, rfl, rfl, rfl⟩

/-- A step on an action ends in `actionAlu` of R20's state, so it sees no later action. -/
theorem toAlu_of_step_action {s t : State} {e : HostEvent} {rest : List HostEvent} (hfeed : s.feed = e :: rest)
    (hstep : step s = .next t) : t.toAlu = actionAlu s.toAlu e := by
  obtain ⟨u, hu, halu, -⟩ := hostAction_answers s rest e
  obtain rfl := Host.Outcome.next.inj (hu.symm.trans ((step_of_action hfeed).symm.trans hstep))
  exact halu

/-- Every step answers a next state and takes one action off the feed, if there is one. -/
theorem step_takes_one_action (s : State) : ∃ t, step s = .next t ∧ t.feed = s.feed.drop 1 := by
  cases hfeed : s.feed with
  | nil => exact ⟨s, step_of_idle hfeed, hfeed⟩
  | cons e rest =>
    obtain ⟨t, ht, -, hrest⟩ := hostAction_answers s rest e
    exact ⟨t, (step_of_action hfeed).trans ht, hrest⟩

/-- A run goes on from the state its first step answers. -/
theorem run_succ_of_step {s t : State} (h : step s = .next t) (n : Nat) : core.run (n + 1) s = core.run n t := by
  have hcore : core.step s = .next t := h
  simp only [Host.Core.run, hcore]

/-- Settles O12, by induction on the number of steps: the first step takes one action, the rest of the run the
others. -/
theorem runConsumesActionsInOrder : Obligations.RunConsumesActionsInOrder := by
  intro n
  induction n with
  | zero => exact fun s => ⟨s, rfl, rfl⟩
  | succ n ih =>
    intro s
    obtain ⟨u, hstep, hu⟩ := step_takes_one_action s
    obtain ⟨t, hrun, ht⟩ := ih u
    refine ⟨t, (run_succ_of_step hstep n).trans hrun, ?_⟩
    rw [ht, hu, List.drop_drop, Nat.add_comm]

/-- Settles O13: both steps end in `actionAlu` of the state of R20 they share, and an issued command is R11's
`aluStep`. -/
theorem laterCommandsDoNotMatter : Obligations.LaterCommandsDoNotMatter := by
  refine ⟨fun s t1 t2 e rest1 rest2 h1 h2 => ?_, fun s c d rest hfeed => ?_⟩
  · have ht1 : t1.toAlu = actionAlu s.toAlu e :=
      toAlu_of_step_action (s := { s with feed := e :: rest1 }) rfl h1
    have ht2 : t2.toAlu = actionAlu s.toAlu e :=
      toAlu_of_step_action (s := { s with feed := e :: rest2 }) rfl h2
    exact ht2.trans ht1.symm
  · exact (step_of_action hfeed).trans (runPort_eq_aluStep s.toAlu c d rest)

end Sys2Proof.Machine
end

section
/-! The opcode map in fields: which row a word selects, and that its row's instruction is read off the fields and
written back to them (spec/30_encoding.md R51 to R62). -/

namespace Sys2Proof

/-! A field and the operand it holds, both ways (R51, R53, R54). -/

@[simp] theorem regOf_regField (r : Reg) : regOf (regField r) = r := rfl

@[simp] theorem regField_regOf (field : BitVec 3) : regField (regOf field) = field := rfl

@[simp] theorem signOf_signField (sg : Sign) : signOf (signField sg) = sg := by cases sg <;> rfl

@[simp] theorem signField_signOf (field : BitVec 1) : signField (signOf field) = field := by
  obtain rfl | rfl := BitVec.eq_zero_or_eq_one field <;> rfl

@[simp] theorem intField_intBits (field : BitVec 8) : intField (intBits field) = field := BitVec.ofInt_toInt

@[simp] theorem fracField_fracBits (field : BitVec 6) : fracField (fracBits field) = field :=
  (BitVec.ofNat_toNat 6 field).trans (BitVec.setWidth_eq field)

/-- IntBits from -128 to 127 fit their field. -/
theorem intBits_intField {i : Int} (hlo : -128 ≤ i) (hhi : i ≤ 127) : intBits (intField i) = i := by
  rw [intBits, intField, BitVec.toInt_ofInt]
  exact Int.bmod_eq_of_le (by omega) (by omega)

/-- FracBits up to 63 fit their field. -/
theorem fracBits_fracField {n : Nat} (h : n ≤ 63) : fracBits (fracField n) = n := by
  rw [fracBits, fracField, BitVec.toNat_ofNat]
  exact Nat.mod_eq_of_lt (by omega)

/-- IntBits of a valid format lie between -62 and 64 (R57), so they fit. -/
theorem intBits_intField_of_valid {f : Fmt} (hf : f.Valid) : intBits (intField f.int) = f.int := by
  obtain ⟨hint, hsum, hfrac⟩ := hf
  exact intBits_intField (by omega) (by omega)

/-- A valid format is read back from its two fields. -/
theorem fmt_fields_of_valid {f : Fmt} (hf : f.Valid) :
    (⟨intBits (intField f.int), fracBits (fracField f.frac)⟩ : Fmt) = f := by
  have hint := intBits_intField_of_valid hf
  obtain ⟨-, -, hfrac⟩ := hf
  rw [hint, fracBits_fracField hfrac]

/-! The fields a row does not use are zero (R59). -/

section clear
variable {f : Fields}

@[simp] theorem Fields.putClear_iff :
    f.putClear = true ↔ f.ra = 0 ∧ f.rb = 0 ∧ f.ia = 0 ∧ f.fa = 0 ∧ f.zero = 0 := by
  simp [Fields.putClear, and_assoc]

@[simp] theorem Fields.getClear_iff : f.getClear = true ↔
    f.rd = 0 ∧ f.rb = 0 ∧ f.s = 0 ∧ f.ia = 0 ∧ f.fa = 0 ∧ f.ib = 0 ∧ f.fb = 0 ∧ f.zero = 0 := by
  simp [Fields.getClear, and_assoc]

@[simp] theorem Fields.cvtClear_iff : f.cvtClear = true ↔ f.rb = 0 ∧ f.zero = 0 := by
  simp [Fields.cvtClear]

@[simp] theorem Fields.tovfClear_iff :
    f.tovfClear = true ↔ f.rd = 0 ∧ f.rb = 0 ∧ f.fb = 0 ∧ f.zero = 0 := by
  simp [Fields.tovfClear, and_assoc]

@[simp] theorem Fields.binaryClear_iff : f.binaryClear = true ↔ f.zero = 0 := beq_iff_eq

@[simp] theorem Fields.negClear_iff :
    f.negClear = true ↔ f.rb = 0 ∧ f.ib = 0 ∧ f.fb = 0 ∧ f.zero = 0 := by
  simp [Fields.negClear, and_assoc]

@[simp] theorem Fields.cmpClear_iff :
    f.cmpClear = true ↔ f.rd = 0 ∧ f.ib = 0 ∧ f.fb = 0 ∧ f.zero = 0 := by
  simp [Fields.cmpClear, and_assoc]

end clear

/-! The row of an instruction, and what a word must have in its fields to select it. -/

/-- The condition R58 and R59 put on the fields for the row of the instruction; its operands do not matter. -/
def Fields.Selects (f : Fields) : Instr → Prop
  | .putTrn _ _ _ => f.op = 0x01 ∧ f.rm = 0 ∧ f.putClear = true
  | .putRnd _ _ _ => f.op = 0x01 ∧ f.rm = 1 ∧ f.putClear = true
  | .putRtz _ _ _ => f.op = 0x01 ∧ f.rm = 2 ∧ f.putClear = true
  | .get _ => f.op = 0x02 ∧ f.rm = 0 ∧ f.getClear = true
  | .cvtTrn _ _ _ _ _ => f.op = 0x03 ∧ f.rm = 0 ∧ f.cvtClear = true
  | .cvtRnd _ _ _ _ _ => f.op = 0x03 ∧ f.rm = 1 ∧ f.cvtClear = true
  | .cvtRtz _ _ _ _ _ => f.op = 0x03 ∧ f.rm = 2 ∧ f.cvtClear = true
  | .sat _ _ _ _ => f.op = 0x04 ∧ f.rm = 0 ∧ f.s = 1 ∧ f.cvtClear = true
  | .tovf _ _ _ _ => f.op = 0x05 ∧ f.rm = 0 ∧ f.tovfClear = true
  | .add _ _ _ _ _ _ => f.op = 0x08 ∧ f.rm = 0 ∧ f.binaryClear = true
  | .sub _ _ _ _ _ _ => f.op = 0x09 ∧ f.rm = 0 ∧ f.binaryClear = true
  | .neg _ _ _ => f.op = 0x0A ∧ f.rm = 0 ∧ f.s = 1 ∧ f.negClear = true
  | .mul _ _ _ _ _ _ => f.op = 0x0B ∧ f.rm = 0 ∧ f.binaryClear = true
  | .div _ _ _ _ _ _ => f.op = 0x0C ∧ f.rm = 0 ∧ f.binaryClear = true
  | .cmp _ _ _ _ => f.op = 0x0D ∧ f.rm = 0 ∧ f.cmpClear = true

/-- The instruction of the same row with the operands that the fields hold (R52, R59). -/
def Fields.read (f : Fields) : Instr → Instr
  | .putTrn _ _ _ => .putTrn (regOf f.rd) (signOf f.s) f.fmtB
  | .putRnd _ _ _ => .putRnd (regOf f.rd) (signOf f.s) f.fmtB
  | .putRtz _ _ _ => .putRtz (regOf f.rd) (signOf f.s) f.fmtB
  | .get _ => .get (regOf f.ra)
  | .cvtTrn _ _ _ _ _ => .cvtTrn (regOf f.rd) (regOf f.ra) (signOf f.s) f.fmtA f.fmtB
  | .cvtRnd _ _ _ _ _ => .cvtRnd (regOf f.rd) (regOf f.ra) (signOf f.s) f.fmtA f.fmtB
  | .cvtRtz _ _ _ _ _ => .cvtRtz (regOf f.rd) (regOf f.ra) (signOf f.s) f.fmtA f.fmtB
  | .sat _ _ _ _ => .sat (regOf f.rd) (regOf f.ra) f.fmtA f.fmtB
  | .tovf _ _ _ _ => .tovf (regOf f.ra) (signOf f.s) f.fmtA (intBits f.ib)
  | .add _ _ _ _ _ _ => .add (regOf f.rd) (regOf f.ra) (regOf f.rb) (signOf f.s) f.fmtA f.fmtB
  | .sub _ _ _ _ _ _ => .sub (regOf f.rd) (regOf f.ra) (regOf f.rb) (signOf f.s) f.fmtA f.fmtB
  | .neg _ _ _ => .neg (regOf f.rd) (regOf f.ra) f.fmtA
  | .mul _ _ _ _ _ _ => .mul (regOf f.rd) (regOf f.ra) (regOf f.rb) (signOf f.s) f.fmtA f.fmtB
  | .div _ _ _ _ _ _ => .div (regOf f.rd) (regOf f.ra) (regOf f.rb) (signOf f.s) f.fmtA f.fmtB
  | .cmp _ _ _ _ => .cmp (regOf f.ra) (regOf f.rb) (signOf f.s) f.fmtA

/-- The instruction's row of R58. -/
def Instr.row : Instr → OpcodeRow
  | .putTrn _ _ _ => opcodeRows[0]
  | .putRnd _ _ _ => opcodeRows[1]
  | .putRtz _ _ _ => opcodeRows[2]
  | .get _ => opcodeRows[3]
  | .cvtTrn _ _ _ _ _ => opcodeRows[4]
  | .cvtRnd _ _ _ _ _ => opcodeRows[5]
  | .cvtRtz _ _ _ _ _ => opcodeRows[6]
  | .sat _ _ _ _ => opcodeRows[7]
  | .tovf _ _ _ _ => opcodeRows[8]
  | .add _ _ _ _ _ _ => opcodeRows[9]
  | .sub _ _ _ _ _ _ => opcodeRows[10]
  | .neg _ _ _ => opcodeRows[11]
  | .mul _ _ _ _ _ _ => opcodeRows[12]
  | .div _ _ _ _ _ _ => opcodeRows[13]
  | .cmp _ _ _ _ => opcodeRows[14]

@[simp] theorem Fields.mnemonic_read (f : Fields) (i : Instr) : (f.read i).mnemonic = i.mnemonic := by
  cases i <;> rfl

theorem Instr.row_mnemonic (i : Instr) : i.row.mnemonic = i.mnemonic := by cases i <;> rfl

theorem Instr.row_mem (i : Instr) : i.row ∈ opcodeRows := by cases i <;> exact List.getElem_mem _

theorem opcodeRows_mnemonic_injective : ∀ a ∈ opcodeRows, ∀ b ∈ opcodeRows, a.mnemonic = b.mnemonic → a = b := by
  decide

/-- Every row of R58 is some instruction's. -/
theorem exists_row_eq : ∀ row ∈ opcodeRows, ∃ i : Instr, i.row = row := by
  have f : Fmt := ⟨1, 0⟩
  simp only [opcodeRows, List.forall_mem_cons]
  exact ⟨⟨.putTrn 0 .signed f, rfl⟩, ⟨.putRnd 0 .signed f, rfl⟩, ⟨.putRtz 0 .signed f, rfl⟩, ⟨.get 0, rfl⟩,
    ⟨.cvtTrn 0 0 .signed f f, rfl⟩, ⟨.cvtRnd 0 0 .signed f f, rfl⟩, ⟨.cvtRtz 0 0 .signed f f, rfl⟩,
    ⟨.sat 0 0 f f, rfl⟩, ⟨.tovf 0 .signed f 0, rfl⟩, ⟨.add 0 0 0 .signed f f, rfl⟩,
    ⟨.sub 0 0 0 .signed f f, rfl⟩, ⟨.neg 0 0 f, rfl⟩, ⟨.mul 0 0 0 .signed f f, rfl⟩,
    ⟨.div 0 0 0 .signed f f, rfl⟩, ⟨.cmp 0 0 .signed f, rfl⟩, List.forall_mem_nil _⟩

/-! The checks of the decoder, each succeeding exactly when it should (R62). -/

section checks
variable {f : Fields} {clear : Bool} {i j : Instr} {rest trn rnd rtz : Except DecodeError Instr}

theorem unusedClear_eq_ok : unusedClear clear j = .ok i ↔ clear = true ∧ j = i := by
  cases clear <;> simp [unusedClear]

theorem noRounding_eq_ok : noRounding f rest = .ok i ↔ f.rm = 0 ∧ rest = .ok i := by
  unfold noRounding
  split_ifs <;> simp_all

theorem needSigned_eq_ok : needSigned f rest = .ok i ↔ f.s = 1 ∧ rest = .ok i := by
  unfold needSigned
  split_ifs <;> simp_all

theorem byRounding_eq_ok : byRounding f trn rnd rtz = .ok i ↔
    f.rm = 0 ∧ trn = .ok i ∨ f.rm = 1 ∧ rnd = .ok i ∨ f.rm = 2 ∧ rtz = .ok i := by
  unfold byRounding
  split_ifs <;> simp_all

end checks

theorem Fields.op_eq_of_toNat {f : Fields} {n : Nat} (hn : f.op.toNat = n) : f.op = BitVec.ofNat 6 n := by
  rw [← hn, BitVec.ofNat_toNat, BitVec.setWidth_eq]

/-- Fields that select a row decode to its instruction. -/
theorem decodeFields_of_selects {f : Fields} {i : Instr} (h : f.Selects i) : decodeFields f = .ok (f.read i) := by
  cases i <;> simp_all [Fields.Selects, Fields.read, decodeFields, noRounding, needSigned, byRounding, unusedClear]

/-- Fields that decode select the row of what they decode to, and hold its operands. -/
theorem selects_of_decodeFields {f : Fields} {i : Instr} (h : decodeFields f = .ok i) :
    f.Selects i ∧ f.read i = i := by
  unfold decodeFields at h
  split at h <;>
    simp only [byRounding_eq_ok, noRounding_eq_ok, needSigned_eq_ok, unusedClear_eq_ok, reduceCtorEq] at h
  case h_1 hn | h_3 hn =>
    obtain ⟨hrm, hclear, rfl⟩ | ⟨hrm, hclear, rfl⟩ | ⟨hrm, hclear, rfl⟩ := h <;>
      exact ⟨⟨Fields.op_eq_of_toNat hn, hrm, hclear⟩, rfl⟩
  case h_4 hn | h_8 hn =>
    obtain ⟨hrm, hs, hclear, rfl⟩ := h
    exact ⟨⟨Fields.op_eq_of_toNat hn, hrm, hs, hclear⟩, rfl⟩
  all_goals
    next hn =>
    obtain ⟨hrm, hclear, rfl⟩ := h
    exact ⟨⟨Fields.op_eq_of_toNat hn, hrm, hclear⟩, rfl⟩

theorem decodeFields_eq_ok {f : Fields} {i : Instr} : decodeFields f = .ok i ↔ f.Selects i ∧ f.read i = i :=
  ⟨selects_of_decodeFields, fun ⟨hsel, hread⟩ => (decodeFields_of_selects hsel).trans (congrArg _ hread)⟩

theorem decode_eq_ok {c : Command} {i : Instr} :
    decode c = .ok i ↔ (Fields.ofCommand c).Selects i ∧ (Fields.ofCommand c).read i = i :=
  decodeFields_eq_ok

/-- An opcode outside the eleven of R58 is refused by name. -/
theorem decodeFields_of_unassigned {f : Fields} (h : f.op ∉
      ([0x01, 0x02, 0x03, 0x04, 0x05, 0x08, 0x09, 0x0A, 0x0B, 0x0C, 0x0D] : List (BitVec 6))) :
    decodeFields f = .error (.unassignedOpcode f.op) := by
  unfold decodeFields
  split
  case h_12 => rfl
  all_goals
    next hn => exact absurd (by rw [Fields.op_eq_of_toNat hn]; decide) h

/-- A word spells an instruction when it decodes to it and the width condition holds (R60, R61). -/
theorem spells_eq_some {c : Command} {i : Instr} : spells c = some i ↔ decode c = .ok i ∧ i.wellFormed = true := by
  cases hdec : decode c with
  | error e => simp [spells, hdec]
  | ok j =>
    simp only [spells, hdec, Option.ite_none_right_eq_some, Option.some.injEq, Except.ok.injEq]
    exact ⟨fun ⟨hj, hji⟩ => ⟨hji, hji ▸ hj⟩, fun ⟨hji, hi⟩ => ⟨hji ▸ hi, hji⟩⟩

/-! Encoding writes the row of the instruction and its operands, and decoding reads them back. -/

/-- The encoding of an instruction selects the instruction's row. -/
theorem encodeFields_selects (i : Instr) : (encodeFields i).Selects i := by
  cases i <;> exact ⟨rfl, rfl, by trivial⟩

/-- The operands of a well-formed instruction fit their fields: they are read back from its encoding. -/
theorem read_encodeFields {i : Instr} (h : i.wellFormed = true) : (encodeFields i).read i = i := by
  cases i with
  | get ra => rfl
  | tovf ra sg fa it =>
    obtain ⟨hfa, hit⟩ := of_decide_eq_true h
    simp [Fields.read, encodeFields, Fields.withA, Fields.fmtA, fmt_fields_of_valid hfa,
      intBits_intField_of_valid hit]
  | _ =>
    simp only [Instr.wellFormed, decide_eq_true_eq] at h
    simp (disch := omega) [Fields.read, encodeFields, putFields, cvtFields, binaryFields, Fields.withA, Fields.withB,
      Fields.fmtA, Fields.fmtB, fmt_fields_of_valid]

/-- Writing back the operands that fields of a row hold gives those fields: all else in them is zero (R59). -/
theorem encodeFields_read {f : Fields} {i : Instr} (h : f.Selects i) : encodeFields (f.read i) = f := by
  obtain ⟨op, rd, ra, rb, s, rm, ia, fa, ib, fb, zero⟩ := f
  cases i <;>
    simp_all [Fields.Selects, Fields.read, encodeFields, putFields, cvtFields, binaryFields, Fields.withA,
      Fields.withB, Fields.clear, Fields.fmtA, Fields.fmtB]

/-! The mask and match columns, field by field. -/

/-- The bitwise and of two words in their fields. -/
def Fields.and (f g : Fields) : Fields :=
  ⟨f.op &&& g.op, f.rd &&& g.rd, f.ra &&& g.ra, f.rb &&& g.rb, f.s &&& g.s, f.rm &&& g.rm, f.ia &&& g.ia,
    f.fa &&& g.fa, f.ib &&& g.ib, f.fb &&& g.fb, f.zero &&& g.zero⟩

theorem Fields.ofCommand_and (c d : Command) :
    Fields.ofCommand (c &&& d) = (Fields.ofCommand c).and (Fields.ofCommand d) := by
  simp only [Fields.ofCommand, Fields.and, BitVec.extractLsb'_and]

theorem Fields.ofCommand_injective : Function.Injective Fields.ofCommand :=
  Function.LeftInverse.injective Fields.toCommand_ofCommand

/-- A hit compares field by field. -/
theorem OpcodeRow.hit_iff_fields (row : OpcodeRow) (c : Command) :
    row.hit c = true ↔ (Fields.ofCommand c).and (Fields.ofCommand row.mask) = Fields.ofCommand row.pattern := by
  rw [OpcodeRow.hit, beq_iff_eq, ← Fields.ofCommand_injective.eq_iff, Fields.ofCommand_and]

/-- A field that the mask covers whole. -/
theorem and_eq_of_allOnes {w : Nat} {m : BitVec w} (h : m = BitVec.allOnes w) (x : BitVec w) : x &&& m = x := by
  rw [h, BitVec.and_allOnes]

/-- The masked fields are the row's pattern exactly when they select the row: the mask covers whole fields only.
Each row is written out first, so that the kernel computes the fields of closed words. -/
theorem and_mask_eq_pattern_iff (f : Fields) (i : Instr) :
    f.and (Fields.ofCommand i.row.mask) = Fields.ofCommand i.row.pattern ↔ f.Selects i := by
  have full6 (x : BitVec 6) : x &&& 63#6 = x := and_eq_of_allOnes rfl x
  have full3 (x : BitVec 3) : x &&& 7#3 = x := and_eq_of_allOnes rfl x
  have full2 (x : BitVec 2) : x &&& 3#2 = x := and_eq_of_allOnes rfl x
  have full1 (x : BitVec 1) : x &&& 1#1 = x := and_eq_of_allOnes rfl x
  have full8 (x : BitVec 8) : x &&& 255#8 = x := and_eq_of_allOnes rfl x
  have full18 (x : BitVec 18) : x &&& 262143#18 = x := and_eq_of_allOnes rfl x
  cases i <;> rw [Instr.row] <;>
    simp [opcodeRows, Fields.ofCommand, Fields.and, full6, full3, full2, full1, full8, full18,
      Fields.Selects, and_left_comm]

/-- A word hits the row of an instruction exactly when its fields meet the decoder's condition for that row. -/
theorem hit_row_iff (i : Instr) (c : Command) : i.row.hit c = true ↔ (Fields.ofCommand c).Selects i :=
  (OpcodeRow.hit_iff_fields i.row c).trans (and_mask_eq_pattern_iff _ i)

/-- A row of R58 is hit exactly by the words that decode to an instruction of its mnemonic. -/
theorem hit_iff_decode {row : OpcodeRow} (hrow : row ∈ opcodeRows) (c : Command) :
    row.hit c = true ↔ ∃ i, decode c = .ok i ∧ i.mnemonic = row.mnemonic := by
  constructor
  · intro hhit
    obtain ⟨i, rfl⟩ := exists_row_eq row hrow
    have hsel : (Fields.ofCommand c).Selects i := (hit_row_iff i c).1 hhit
    exact ⟨_, decodeFields_of_selects hsel, by rw [Fields.mnemonic_read, Instr.row_mnemonic]⟩
  · rintro ⟨i, hdec, hmnemonic⟩
    obtain ⟨hsel, -⟩ := decode_eq_ok.1 hdec
    obtain rfl : i.row = row :=
      opcodeRows_mnemonic_injective _ i.row_mem _ hrow (i.row_mnemonic.trans hmnemonic)
    exact (hit_row_iff i c).2 hsel

end Sys2Proof
end

section
/-! The statements on the command word (spec/30_encoding.md R50 to R64), and that no step stops. -/

namespace Sys2Proof

/-- Settles O1: the encoding selects the instruction's row and holds its operands. -/
theorem decodeOfEncode : Obligations.DecodeOfEncode := by
  intro i hi
  rw [decode_eq_ok, encode, Fields.ofCommand_toCommand]
  exact ⟨encodeFields_selects i, read_encodeFields hi⟩

/-- Settles O2: the row and the operands the fields hold fix every field, and the fields fix the word. -/
theorem encodeOfDecode : Obligations.EncodeOfDecode := by
  intro c i h
  obtain ⟨hsel, hread⟩ := decode_eq_ok.1 h
  have hfields : encodeFields i = Fields.ofCommand c := by
    have hback := encodeFields_read hsel
    rwa [hread] at hback
  rw [encode, hfields, Fields.toCommand_ofCommand]

/-- Settles O3: row by row through `Fields.Selects`, the field form of both the table and the decoder. -/
theorem decoderFollowsOpcodeMap : Obligations.DecoderFollowsOpcodeMap :=
  ⟨fun c _ hrow => hit_iff_decode hrow c, fun _ hop => decodeFields_of_unassigned hop, fun _ _ => spells_eq_some⟩

/-- Settles O11: whether the host acts or not, the step answers a next state. -/
theorem stepAlwaysAnswersNext : Obligations.StepAlwaysAnswersNext := by
  intro s
  obtain ⟨t, hstep, -⟩ := Machine.step_takes_one_action s
  exact ⟨t, hstep⟩

/-- Settles O4, word by word. -/
theorem writtenWordsDecode : Obligations.WrittenWordsDecode := by
  refine ⟨?_, ?_, ?_, ?_, ?_, ?_, ?_, ?_⟩ <;> decide

end Sys2Proof
end

section
/-! The two limbs of a word: how a word is put together from them and read back, in values and in bits
(spec/40_wideword.md R80). -/

namespace Sys2Proof.Machine

/-- Putting two limbs together is concatenation. -/
theorem ofLimbs_eq_append (h l : Limb) : ofLimbs h l = h ++ l := by
  apply BitVec.eq_of_toNat_eq
  have hh := h.isLt
  have hl := l.isLt
  rw [BitVec.toNat_append, ← Nat.shiftLeft_add_eq_or_of_lt hl, Nat.shiftLeft_eq, ofLimbs, BitVec.toNat_ofNat]
  omega

@[simp] theorem lo_ofLimbs (h l : Limb) : lo (ofLimbs h l) = l := by
  rw [ofLimbs_eq_append, lo, BitVec.extractLsb'_append_eq_right]

@[simp] theorem hi_ofLimbs (h l : Limb) : hi (ofLimbs h l) = h := by
  rw [ofLimbs_eq_append, hi, BitVec.extractLsb'_append_eq_left]

theorem toNat_lo (w : Word) : (lo w).toNat = uval w % 2 ^ 64 := by
  rw [lo, BitVec.extractLsb'_toNat, Nat.shiftRight_zero, uval]

theorem toNat_hi (w : Word) : (hi w).toNat = uval w / 2 ^ 64 := by
  have := w.isLt
  rw [hi, BitVec.extractLsb'_toNat, Nat.shiftRight_eq_div_pow, uval]
  omega

theorem getLsbD_lo (w : Word) {j : Nat} (hj : j < 64) : (lo w).getLsbD j = w.getLsbD j := by
  simp [lo, hj]

theorem getLsbD_hi (w : Word) (j : Nat) : (hi w).getLsbD j = w.getLsbD (64 + j) := by
  rw [hi, BitVec.getLsbD_extractLsb']
  by_cases hj : j < 64
  · simp [hj]
  · rw [BitVec.getLsbD_of_ge w _ (by omega), Bool.and_false]

/-- The sign of a word is the sign of its high limb. -/
theorem msb_hi (w : Word) : (hi w).msb = w.msb := by
  rw [BitVec.msb_eq_getLsbD_last, BitVec.msb_eq_getLsbD_last, getLsbD_hi]

/-- `u(w) = u(hi) * 2^64 + u(lo)` (R80). -/
theorem uval_eq_limbs (w : Word) : uval w = (hi w).toNat * 2 ^ 64 + (lo w).toNat := by
  rw [toNat_hi, toNat_lo]
  omega

/-- A word is determined by its limbs. -/
theorem eq_of_limbs_eq {a b : Word} (hhi : hi a = hi b) (hlo : lo a = lo b) : a = b :=
  BitVec.eq_of_toNat_eq (by rw [← uval, ← uval, uval_eq_limbs a, uval_eq_limbs b, hhi, hlo])

/-- Two limbs make up the word `w` when each has the bits of its half of `w`. -/
theorem ofLimbs_eq_of_bits {h l : Limb} {w : Word} (hlo : ∀ j, j < 64 → l.getLsbD j = w.getLsbD j)
    (hhi : ∀ j, j < 64 → h.getLsbD j = w.getLsbD (64 + j)) : ofLimbs h l = w := by
  apply eq_of_limbs_eq
  · rw [hi_ofLimbs]
    exact BitVec.eq_of_getLsbD_eq fun j hj => by rw [hhi j hj, getLsbD_hi]
  · rw [lo_ofLimbs]
    exact BitVec.eq_of_getLsbD_eq fun j hj => by rw [hlo j hj, getLsbD_lo w hj]

/-- A high limb computed modulo `2^64` gives a word computed modulo `2^128`: what the limb loses above its bit 63,
the word loses above its bit 127. -/
theorem ofLimbs_ofInt (x : Int) (l : Limb) :
    ofLimbs (BitVec.ofInt 64 x) l = BitVec.ofInt 128 (x * 2 ^ 64 + l.toNat) := by
  apply BitVec.eq_of_toNat_eq
  have := l.isLt
  rw [ofLimbs, BitVec.toNat_ofNat, BitVec.toNat_ofInt, BitVec.toNat_ofInt]
  omega

/-- A bit vector is its unsigned reading, wrapped. -/
theorem ofInt_toNat {n : Nat} (x : BitVec n) : BitVec.ofInt n x.toNat = x := by
  rw [BitVec.ofInt_natCast, BitVec.ofNat_toNat, BitVec.setWidth_eq]

end Sys2Proof.Machine
end

section
/-! The shifts and their limb readings (spec/40_wideword.md R81, R82): values by the shift's arithmetic,
limbs bit by bit. -/

namespace Sys2Proof.Machine

theorem uval_shl (w : Word) {n : Nat} (hn : n < 128) : uval (shl w n) = uval w * 2 ^ n % 2 ^ 128 := by
  rw [shl_of_lt w hn, uval, BitVec.toNat_shiftLeft, Nat.shiftLeft_eq, uval]

theorem uval_shrU (w : Word) {n : Nat} (hn : n < 128) : uval (shrU w n) = uval w / 2 ^ n := by
  rw [shrU_of_lt w hn, uval, BitVec.toNat_ushiftRight, Nat.shiftRight_eq_div_pow, uval]

theorem sval_shrS (w : Word) {n : Nat} (hn : n < 128) : sval (shrS w n) = sval w / 2 ^ n := by
  rw [shrS_of_lt w hn, sval, BitVec.toInt_sshiftRight, Int.shiftRight_eq_div_pow, sval]
  norm_cast

/-- A left shift in bits: zeros enter at bit 0 (R81). -/
theorem getLsbD_shl (w : Word) {n : Nat} (hn : n < 128) {j : Nat} (hj : j < 128) :
    (shl w n).getLsbD j = (decide (n ≤ j) && w.getLsbD (j - n)) := by
  rw [shl_of_lt w hn, BitVec.getLsbD_shiftLeft]
  by_cases h : n ≤ j
  · simp [hj, h]
  · simp [h, show j < n by omega]

/-- A logical right shift in bits: zeros enter at bit 127 (R82). -/
theorem getLsbD_shrU (w : Word) {n : Nat} (hn : n < 128) (j : Nat) : (shrU w n).getLsbD j = w.getLsbD (n + j) := by
  rw [shrU_of_lt w hn, BitVec.getLsbD_ushiftRight]

/-- An arithmetic right shift in bits: copies of the sign bit enter at bit 127 (R82). -/
theorem getLsbD_shrS (w : Word) {n : Nat} (hn : n < 128) {j : Nat} (hj : j < 128) :
    (shrS w n).getLsbD j = if n + j < 128 then w.getLsbD (n + j) else w.msb := by
  rw [shrS_of_lt w hn, BitVec.getLsbD_sshiftRight]
  simp [show ¬ 128 ≤ j by omega]

/-- The low limb of a word shifted right by fewer than 64 places, whatever enters at bit 127: the high limb's low bits
come in above (R82). -/
theorem getLsbD_lo_shiftRight_or (w : Word) {n : Nat} (hn : n < 64) {j : Nat} (hj : j < 64) :
    ((lo w >>> n) ||| (hi w <<< (64 - n))).getLsbD j = w.getLsbD (n + j) := by
  rw [BitVec.getLsbD_or, BitVec.getLsbD_ushiftRight, BitVec.getLsbD_shiftLeft]
  by_cases h : n + j < 64
  · rw [getLsbD_lo w h]
    simp [show j < 64 - n by omega]
  · rw [BitVec.getLsbD_of_ge (lo w) _ (by omega), getLsbD_hi,
      show 64 + (j - (64 - n)) = n + j by omega]
    simp [hj, show ¬ j < 64 - n by omega]

/-- The two-limb left shift is the word shift: below 64 places the low limb's high bits go into the high limb, from
64 places on the low limb becomes the high one (R81). -/
theorem shlLimbs_eq_shl (w : Word) {n : Nat} (hn : n < 128) : shlLimbs w n = shl w n := by
  unfold shlLimbs
  split_ifs with hzero hsmall
  · rw [shl_of_lt w hn, hzero, BitVec.shiftLeft_zero]
  · apply ofLimbs_eq_of_bits
    · intro j hj
      rw [getLsbD_shl w hn (by omega), BitVec.getLsbD_shiftLeft]
      by_cases h : n ≤ j
      · rw [getLsbD_lo w (by omega)]
        simp [h, hj]
      · simp [h, show j < n by omega]
    · intro j hj
      rw [getLsbD_shl w hn (by omega), BitVec.getLsbD_or, BitVec.getLsbD_shiftLeft, BitVec.getLsbD_ushiftRight]
      by_cases h : n ≤ j
      · rw [getLsbD_hi, BitVec.getLsbD_of_ge (lo w) _ (by omega), ← Nat.add_sub_assoc h]
        simp [hj, show ¬ j < n by omega, show n ≤ 64 + j by omega]
      · rw [getLsbD_lo w (by omega), show 64 - n + j = 64 + j - n by omega]
        simp [show j < n by omega, show n ≤ 64 + j by omega]
  · apply ofLimbs_eq_of_bits
    · intro j hj
      rw [getLsbD_shl w hn (by omega)]
      simp [show ¬ n ≤ j by omega]
    · intro j hj
      rw [getLsbD_shl w hn (by omega), BitVec.getLsbD_shiftLeft]
      by_cases h : n ≤ 64 + j
      · rw [getLsbD_lo w (by omega), show j - (n - 64) = 64 + j - n by omega]
        simp [hj, h, show ¬ j < n - 64 by omega]
      · simp [h, show j < n - 64 by omega]

/-- Settles O48: the shift is a product modulo `2^128`, and the limbs have its bits. -/
theorem shiftLeftAgreesWithLimbs : Obligations.ShiftLeftAgreesWithLimbs :=
  fun w _ hn => ⟨uval_shl w hn, shlLimbs_eq_shl w hn⟩

/-- The two-limb logical right shift is the word shift (R82). -/
theorem shrULimbs_eq_shrU (w : Word) {n : Nat} (hn : n < 128) : shrULimbs w n = shrU w n := by
  unfold shrULimbs
  split_ifs with hzero hsmall
  · rw [shrU_of_lt w hn, hzero, BitVec.ushiftRight_zero]
  · apply ofLimbs_eq_of_bits
    · intro j hj
      rw [getLsbD_lo_shiftRight_or w hsmall hj, getLsbD_shrU w hn]
    · intro j hj
      rw [getLsbD_shrU w hn, BitVec.getLsbD_ushiftRight, getLsbD_hi, Nat.add_left_comm]
  · apply ofLimbs_eq_of_bits
    · intro j hj
      rw [getLsbD_shrU w hn, BitVec.getLsbD_ushiftRight, getLsbD_hi, show 64 + (n - 64 + j) = n + j by omega]
    · intro j hj
      rw [getLsbD_shrU w hn, BitVec.getLsbD_of_ge w _ (by omega)]
      simp

/-- The high limb shifted right arithmetically, at the bits it has: the sign bit of the word enters. -/
theorem getLsbD_hi_sshiftRight (w : Word) (n : Nat) {j : Nat} (hj : j < 64) :
    ((hi w).sshiftRight n).getLsbD j = if n + j < 64 then w.getLsbD (64 + (n + j)) else w.msb := by
  rw [BitVec.getLsbD_sshiftRight, msb_hi, getLsbD_hi]
  simp [show ¬ 64 ≤ j by omega]

/-- Every bit of the limb that fills with a sign is that sign. -/
theorem getLsbD_signFill (sign : Bool) {j : Nat} (hj : j < 64) :
    (if sign then BitVec.allOnes 64 else 0 : Limb).getLsbD j = sign := by
  cases sign with
  | false => exact BitVec.getLsbD_zero
  | true => rw [if_pos rfl, BitVec.getLsbD_allOnes, decide_eq_true hj]

/-- The two-limb arithmetic right shift is the word shift: from 64 places on the high limb is the sign alone (R82). -/
theorem shrSLimbs_eq_shrS (w : Word) {n : Nat} (hn : n < 128) : shrSLimbs w n = shrS w n := by
  unfold shrSLimbs
  by_cases hzero : n = 0
  · rw [if_pos hzero, shrS_of_lt w hn, hzero, BitVec.sshiftRight_zero]
  by_cases hsmall : n < 64
  · rw [if_neg hzero, if_pos hsmall]
    apply ofLimbs_eq_of_bits
    · intro j hj
      rw [getLsbD_lo_shiftRight_or w hsmall hj, getLsbD_shrS w hn (by omega), if_pos (by omega)]
    · intro j hj
      rw [getLsbD_hi_sshiftRight w n hj, getLsbD_shrS w hn (by omega), Nat.add_left_comm]
      exact if_congr (by omega) rfl rfl
  · rw [if_neg hzero, if_neg hsmall, if_pos hn]
    apply ofLimbs_eq_of_bits
    · intro j hj
      rw [getLsbD_hi_sshiftRight w _ hj, getLsbD_shrS w hn (by omega),
        show 64 + (n - 64 + j) = n + j by omega]
      exact if_congr (by omega) rfl rfl
    · intro j hj
      rw [getLsbD_signFill _ hj, msb_hi, getLsbD_shrS w hn (by omega), if_neg (by omega)]

/-- Settles O49: the shifts are floors, the limbs have their bits, and `shr` is a choice between the two. -/
theorem shiftRightAgreesWithLimbs : Obligations.ShiftRightAgreesWithLimbs :=
  fun w _ hn => ⟨uval_shrU w hn, shrULimbs_eq_shrU w hn, sval_shrS w hn, shrSLimbs_eq_shrS w hn, rfl, rfl⟩

end Sys2Proof.Machine
end

section
/-! Word addition, subtraction and order, and their limb readings (spec/40_wideword.md R83 to R86): a word computed
modulo `2^128` is a `BitVec.ofInt` of integers, and so is one put together from limbs. -/

namespace Sys2Proof.Machine

theorem uval_wadd (a b : Word) : uval (wadd a b) = (uval a + uval b) % 2 ^ 128 := BitVec.toNat_add a b

theorem uval_wsub (a b : Word) : (uval (wsub a b) : Int) = ((uval a : Int) - uval b) % 2 ^ 128 := by
  have := b.isLt
  rw [wsub, uval, BitVec.toNat_sub, uval, uval]
  omega

theorem wadd_eq_ofInt (a b : Word) : wadd a b = BitVec.ofInt 128 (uval a + uval b) := by
  rw [BitVec.ofInt_add, uval, uval, ofInt_toNat, ofInt_toNat, wadd]

theorem ofInt_sub {n : Nat} (x y : Int) : BitVec.ofInt n (x - y) = BitVec.ofInt n x - BitVec.ofInt n y := by
  rw [Int.sub_eq_add_neg, BitVec.ofInt_add, BitVec.ofInt_neg, BitVec.sub_eq_add_neg]

theorem wsub_eq_ofInt (a b : Word) : wsub a b = BitVec.ofInt 128 (uval a - uval b) := by
  rw [ofInt_sub, uval, uval, ofInt_toNat, ofInt_toNat, wsub]

/-- The carry found by comparing the wrapped sum of two limbs with one of them is the carry (R83). -/
theorem toNat_add_carry (x y : Limb) :
    ((x + y).toNat : Int) + (if (x + y).toNat < x.toNat then 1 else 0) * 2 ^ 64 = x.toNat + y.toNat := by
  rw [BitVec.toNat_add]
  split_ifs <;> omega

/-- The borrow found by comparing the wrapped difference of two limbs with the left one is the borrow (R84). -/
theorem toNat_sub_borrow (x y : Limb) :
    ((x - y).toNat : Int) - (if x.toNat < (x - y).toNat then 1 else 0) * 2 ^ 64 = x.toNat - y.toNat := by
  rw [BitVec.toNat_sub]
  split_ifs <;> omega

/-- The two conditions for the borrow agree (R84). -/
theorem lt_toNat_sub_iff (x y : Limb) : x.toNat < (x - y).toNat ↔ x.toNat < y.toNat := by
  rw [BitVec.toNat_sub]
  omega

/-- A carry or borrow limb is 1 or 0. -/
theorem ofInt_ite_one_zero (p : Prop) [Decidable p] :
    BitVec.ofInt 64 (if p then 1 else 0) = if p then (1 : Limb) else 0 := by
  split_ifs <;> rfl

/-- The two-limb addition is the word addition: the low limb and its carry are the whole low sum (R83). -/
theorem addLimbs_eq_wadd (a b : Word) : addLimbs a b = wadd a b := by
  have hcarry := toNat_add_carry (lo a) (lo b)
  rw [wadd_eq_ofInt, uval_eq_limbs a, uval_eq_limbs b, addLimbs, ← ofInt_ite_one_zero, ← ofInt_toNat (hi a),
    ← ofInt_toNat (hi b), ← BitVec.ofInt_add, ← BitVec.ofInt_add, ofLimbs_ofInt, ofInt_toNat, ofInt_toNat]
  congr 1
  push_cast
  linarith

/-- The two-limb subtraction is the word subtraction: the low limb and its borrow are the whole low difference
(R84). -/
theorem subLimbs_eq_wsub (a b : Word) : subLimbs a b = wsub a b := by
  have hborrow := toNat_sub_borrow (lo a) (lo b)
  rw [wsub_eq_ofInt, uval_eq_limbs a, uval_eq_limbs b, subLimbs, ← ofInt_ite_one_zero, ← ofInt_toNat (hi a),
    ← ofInt_toNat (hi b), ← ofInt_sub, ← ofInt_sub, ofLimbs_ofInt, ofInt_toNat, ofInt_toNat]
  congr 1
  push_cast
  linarith

/-- Settles O50: the low limb with its carry is the whole low sum, and both readings lose what passes bit 127. -/
theorem addAgreesWithLimbs : Obligations.AddAgreesWithLimbs :=
  fun a b => ⟨uval_wadd a b, addLimbs_eq_wadd a b⟩

/-- Negation is the complement plus one (R84). -/
theorem wneg_eq_not_add_one (a : Word) : wneg a = wadd (~~~ a) 1 := by
  rw [wneg, wsub, wadd, BitVec.ofNat_eq_ofNat, BitVec.zero_sub, BitVec.neg_eq_not_add]
  rfl

/-- Settles O51: the low limb with its borrow is the whole low difference; the two negations are closed words. -/
theorem subAgreesWithLimbs : Obligations.SubAgreesWithLimbs :=
  ⟨fun a b => ⟨uval_wsub a b, subLimbs_eq_wsub a b, lt_toNat_sub_iff (lo a) (lo b)⟩,
    fun a => ⟨rfl, wneg_eq_not_add_one a⟩, by decide, by decide⟩

/-- The order limb by limb, high limb first, is the order of the unsigned readings (R86). -/
theorem wltLimbs_eq_wlt (a b : Word) : wltLimbs a b = wlt a b := by
  rw [Bool.eq_iff_iff]
  have := uval_eq_limbs a
  have := uval_eq_limbs b
  simp only [wltLimbs, wlt, Bool.or_eq_true, Bool.and_eq_true, decide_eq_true_eq, beq_iff_eq, ← BitVec.toNat_inj]
  omega

theorem wlt_iff {a b : Word} : wlt a b = true ↔ uval a < uval b := decide_eq_true_iff

theorem weqLimbs_iff {a b : Word} : weqLimbs a b = true ↔ a = b := by
  simp only [weqLimbs, Bool.and_eq_true, beq_iff_eq]
  exact ⟨fun ⟨hhi, hlo⟩ => eq_of_limbs_eq hhi hlo, fun h => h ▸ ⟨rfl, rfl⟩⟩

theorem wle_iff {a b : Word} : wle a b = true ↔ uval a ≤ uval b := by
  rw [wle, Bool.or_eq_true, wlt_iff, beq_iff_eq, le_iff_lt_or_eq, uval, uval, BitVec.toNat_inj]

theorem wgt_iff {a b : Word} : wgt a b = true ↔ uval b < uval a := wlt_iff

theorem wge_iff {a b : Word} : wge a b = true ↔ uval b ≤ uval a := by
  rw [wge, Bool.not_eq_true', ← Bool.not_eq_true, wlt_iff, not_lt]

/-- Settles O52: each relation is the one of the unsigned readings. -/
theorem orderAgreesWithLimbs : Obligations.OrderAgreesWithLimbs :=
  fun a b => ⟨wltLimbs_eq_wlt a b, wlt_iff, weqLimbs_iff, wle_iff, wgt_iff, wge_iff⟩

end Sys2Proof.Machine
end

section
/-! The mask builders, and the ranges of the amounts that formats give (spec/40_wideword.md R87, R88). -/

namespace Sys2Proof.Machine

theorem uval_bit {n : Nat} (hn : n < 128) : uval (bit n) = 2 ^ n := by
  rw [bit_of_lt hn, uval, BitVec.toNat_ofNat, Nat.mod_eq_of_lt (Nat.pow_lt_pow_right (by omega) hn)]

theorem uval_lowmask {n : Nat} (hn : n < 128) : uval (lowmask n) = 2 ^ n - 1 := by
  have : 2 ^ n < 2 ^ 128 := Nat.pow_lt_pow_right (by omega) hn
  rw [lowmask_of_lt hn, uval, BitVec.toNat_ofNat, Nat.mod_eq_of_lt (by omega)]

/-- Settles O53: the readings are the powers of two, and the complement has the bits `lowmask` lacks. -/
theorem maskBuilders : Obligations.MaskBuilders := by
  intro n hn
  refine ⟨uval_bit hn, uval_lowmask hn, fun j => ?_⟩
  by_cases hj : j < 128
  · rw [getLsbD_not_lowmask hn hj]
    simp [hj]
  · rw [BitVec.getLsbD_of_ge _ _ (by omega)]
    simp [hj]

/-- In a valid format `I` is at least `-62`: with at most 63 FracBits it could not be less. -/
theorem frac_and_int_bounds {f : Fmt} (hf : f.Valid) : f.frac ≤ 63 ∧ -62 ≤ f.int ∧ f.int ≤ 64 := by
  obtain ⟨hint, hsum, hfrac⟩ := hf
  omega

/-- Settles O54: in a valid format `F` is at most 63 and `I` runs from -62 to 64, and the amounts follow. -/
theorem shiftAmountsInRange : Obligations.ShiftAmountsInRange := by
  refine ⟨fun f hf => ?_, fun rd ra rb sg fa fb hwf => ?_, fun rd ra rb sg fa fb hwf => ?_⟩
  · obtain ⟨hfrac, hlo, hhi⟩ := frac_and_int_bounds hf
    unfold lowBit aboveTop topBit
    omega
  · obtain ⟨-, -, -, hfrac⟩ : fa.Valid ∧ fb.Valid ∧ fa.int + fb.int ≤ 64 ∧ fa.frac + fb.frac ≤ 63 :=
      of_decide_eq_true hwf
    omega
  · obtain ⟨⟨-, -, hfrac⟩, -⟩ : fa.Valid ∧ fb.Valid ∧ fb.frac ≤ fa.frac ∧ fa.int + fb.frac ≤ 64 :=
      of_decide_eq_true hwf
    simp only [lowBit, divFmt]
    omega

end Sys2Proof.Machine
end

section
/-! The word multiply and its limb reading, and the word divide (spec/40_wideword.md R89, R90). -/

namespace Sys2Proof.Machine

theorem uval_wmul (a b : Word) : uval (wmul a b) = uval a * uval b % 2 ^ 128 := BitVec.toNat_mul a b

/-- The low 128 bits are the same for the signed readings (R89). -/
theorem wmul_eq_ofInt_sval (a b : Word) : wmul a b = BitVec.ofInt 128 (sval a * sval b) := by
  rw [BitVec.ofInt_mul, sval, sval, BitVec.ofInt_toInt, BitVec.ofInt_toInt, wmul]

theorem wmul_eq_ofInt_uval (a b : Word) : wmul a b = BitVec.ofInt 128 (uval a * uval b) := by
  rw [BitVec.ofInt_mul, uval, uval, ofInt_toNat, ofInt_toNat, wmul]

/-- The widening multiply is exact: a product of two limbs fits a word (R89). -/
theorem uval_wideMul_unsigned (x y : Limb) : uval (wideMul x y .unsigned) = x.toNat * y.toNat := by
  have hlt : x.toNat * y.toNat < 2 ^ 64 * 2 ^ 64 := Nat.mul_lt_mul'' x.isLt y.isLt
  rw [wideMul, uval, BitVec.toNat_ofNat, Nat.mod_eq_of_lt (by omega)]

theorem sval_wideMul_signed (x y : Limb) : sval (wideMul x y .signed) = x.toInt * y.toInt := by
  obtain ⟨hlo, hhi⟩ := mul_range (m := 63) (n := 63) ⟨x.le_toInt, x.toInt_lt⟩ ⟨y.le_toInt, y.toInt_lt⟩
  rw [wideMul, sval, BitVec.toInt_ofInt_eq_self (by omega) (by omega) (by omega)]

/-- The low limb of a word is its unsigned reading modulo `2^64`. -/
theorem ofInt_uval_eq_lo (w : Word) : BitVec.ofInt 64 (uval w) = lo w := by
  apply BitVec.eq_of_toNat_eq
  rw [BitVec.ofInt_natCast, BitVec.toNat_ofNat, toNat_lo]

theorem ofInt_add_mul_two_pow (x y : Int) : BitVec.ofInt 128 (x + y * 2 ^ 128) = BitVec.ofInt 128 x := by
  apply BitVec.eq_of_toNat_eq
  rw [BitVec.toNat_ofInt, BitVec.toNat_ofInt]
  omega

/-- The three-product scheme is the word multiply: the product it leaves out, high by high, is a multiple of
`2^128` (R89). -/
theorem mulLimbs_eq_wmul (a b : Word) : mulLimbs a b = wmul a b := by
  have hlow := uval_eq_limbs (wideMul (lo a) (lo b) .unsigned)
  rw [uval_wideMul_unsigned] at hlow
  have hhigh : mulLimbs a b = BitVec.ofInt 128 ((lo a).toNat * (lo b).toNat +
      ((lo a).toNat * (hi b).toNat + (hi a).toNat * (lo b).toNat) * 2 ^ 64) := by
    rw [mulLimbs, ← ofInt_uval_eq_lo (wideMul (lo a) (hi b) _), ← ofInt_uval_eq_lo (wideMul (hi a) (lo b) _),
      ← ofInt_toNat (hi (wideMul (lo a) (lo b) _)), ← BitVec.ofInt_add, ← BitVec.ofInt_add, ofLimbs_ofInt,
      uval_wideMul_unsigned, uval_wideMul_unsigned]
    congr 1
    zify at hlow
    push_cast
    linarith
  rw [hhigh, wmul_eq_ofInt_uval, uval_eq_limbs a, uval_eq_limbs b,
    ← ofInt_add_mul_two_pow _ ((hi a).toNat * (hi b).toNat)]
  congr 1
  push_cast
  ring

/-- Settles O55: every multiply is a product of readings, taken modulo its width or exact. -/
theorem multiplyAgreesWithLimbs : Obligations.MultiplyAgreesWithLimbs :=
  ⟨fun a b => ⟨uval_wmul a b, wmul_eq_ofInt_sval a b, mulLimbs_eq_wmul a b⟩,
    fun x y => ⟨BitVec.toNat_mul x y, sval_wideMul_signed x y, uval_wideMul_unsigned x y⟩⟩

theorem uval_wdiv_unsigned (a : Word) {b : Word} (hb : b ≠ 0) : uval (wdiv a b .unsigned) = uval a / uval b := by
  have hlt : uval a / uval b < 2 ^ 128 := (Nat.div_le_self _ _).trans_lt a.isLt
  rw [wdiv_unsigned_of_ne_zero a hb, uval, BitVec.toNat_ofNat, Nat.mod_eq_of_lt hlt]

/-- The sign of a quotient that truncates toward zero: negative exactly when the operands have opposite signs and
it is not zero (R90). -/
theorem tdiv_neg_iff {x y : Int} : x.tdiv y < 0 ↔ (x < 0 ↔ 0 < y) ∧ x.tdiv y ≠ 0 := by
  by_cases hsigns : x < 0 ↔ 0 < y
  · have hq : x.tdiv y ≤ 0 := by
      by_cases hx : x < 0
      · have h := Int.tdiv_nonneg (a := -x) (b := y) (by omega) (by omega)
        rw [Int.neg_tdiv] at h
        omega
      · exact Int.tdiv_nonpos_of_nonneg_of_nonpos (by omega) (by omega)
    rw [lt_iff_le_and_ne]
    simp [hsigns, hq]
  · have hq : 0 ≤ x.tdiv y := by
      by_cases hx : x < 0
      · exact Int.tdiv_nonneg_of_nonpos_of_nonpos (by omega) (by omega)
      · exact Int.tdiv_nonneg (by omega) (by omega)
    simp [hsigns, hq]

/-- The stored integer of a canonical signed word is not the most negative one: the right shift is by at least 1
(R90). -/
theorem sval_stored_ne_min {x : Word} {f : Fmt} (hf : f.Valid) (hx : canonical x f .signed = true) :
    sval (stored x f.frac .signed) ≠ -2 ^ 127 := by
  obtain ⟨-, htop, -⟩ := bit_bounds_of_valid hf
  have hfrac := (frac_and_int_bounds hf).1
  have hbits : magnitudeBits f < 127 := by
    unfold magnitudeBits lowBit
    omega
  have hpow : (2 : Int) ^ magnitudeBits f < 2 ^ 127 := pow_lt_pow_right₀ (by norm_num) hbits
  obtain ⟨hlo, -⟩ := sval_stored_range hf hx
  omega

/-- Settles O56: the quotient is `Int.tdiv` of the signed readings, whose magnitude and sign are R90's. -/
theorem wordDivideTruncates : Obligations.WordDivideTruncates :=
  ⟨fun a b hb => ⟨⟨(sval a).tdiv (sval b), wdiv_signed_of_ne_zero a hb, Int.natAbs_tdiv _ _,
    tdiv_neg_iff⟩, uval_wdiv_unsigned a hb⟩, fun _ _ hf hx => sval_stored_ne_min hf hx⟩

end Sys2Proof.Machine
end

section
/-! The signed reading of a word against the unsigned one, and of the words the format logic adds and masks with
(spec/00_scope.md R7; 40_wideword.md R83, R87). -/

namespace Sys2Proof.Machine

theorem getLsbD_sign_eq_true_iff {w : Word} : w.getLsbD 127 = true ↔ sval w < 0 := by
  rw [show w.getLsbD 127 = w.msb from (BitVec.msb_eq_getLsbD_last w).symm, BitVec.msb_eq_toInt, decide_eq_true_iff,
    sval]

theorem getLsbD_sign_eq_false_iff {w : Word} : w.getLsbD 127 = false ↔ 0 ≤ sval w := by
  rw [← not_lt, ← getLsbD_sign_eq_true_iff, Bool.not_eq_true]

/-- The two readings differ by `2^128` when bit 127 is set, and agree when it is clear (R7). -/
theorem sval_eq_uval_sub (w : Word) : sval w = uval w - if w.getLsbD 127 = true then 2 ^ 128 else 0 := by
  rw [sval, BitVec.toInt_eq_msb_cond, BitVec.msb_eq_getLsbD_last, uval]
  split_ifs
  · norm_cast
  · rw [sub_zero]

theorem sval_range (w : Word) : -2 ^ 127 ≤ sval w ∧ sval w < 2 ^ 127 := ⟨BitVec.le_toInt w, BitVec.toInt_lt⟩

/-- Where the sum of the signed readings fits the word, addition gives it. -/
theorem sval_wadd_of_range {a b : Word} (hlo : -2 ^ 127 ≤ sval a + sval b) (hhi : sval a + sval b < 2 ^ 127) :
    sval (wadd a b) = sval a + sval b := by
  have hsum : wadd a b = BitVec.ofInt 128 (sval a + sval b) := by
    rw [BitVec.ofInt_add, sval, sval, BitVec.ofInt_toInt, BitVec.ofInt_toInt, wadd]
  rw [hsum]
  exact BitVec.toInt_ofInt_eq_self (by omega) hlo hhi

theorem sval_bit {n : Nat} (hn : n < 127) : sval (bit n) = 2 ^ n := by
  rw [sval_eq_uval_sub, uval_bit (by omega), getLsbD_bit (by omega)]
  simp [hn.ne]

theorem sval_lowmask {n : Nat} (hn : n < 128) : sval (lowmask n) = 2 ^ n - 1 := by
  rw [sval_eq_uval_sub, uval_lowmask hn, getLsbD_lowmask hn]
  simp [show ¬ 127 < n by omega]

/-- The complement of a word reads as its negative less one (R84). -/
theorem sval_not (w : Word) : sval (~~~ w) = -sval w - 1 := by
  have hlt : uval w < 2 ^ 128 := w.isLt
  have hnot : uval (~~~ w) = 2 ^ 128 - 1 - uval w := BitVec.toNat_not
  rw [sval_eq_uval_sub, sval_eq_uval_sub w, hnot, BitVec.getLsbD_not]
  by_cases hsign : w.getLsbD 127 = true
  · rw [if_pos hsign, if_neg (by simp [hsign])]
    omega
  · rw [if_neg hsign, if_pos (by simpa using hsign)]
    omega

end Sys2Proof.Machine
end

section
/-! The format logic in values: the mask rounds down, `ext` wraps modulo `2^I`, and `norm` does both
(spec/41_format_logic.md R104 to R106). -/

namespace Sys2Proof.Machine

theorem lowBit_lt (frac : Nat) : lowBit frac < 128 := by
  unfold lowBit
  omega

/-- The mask is a shift down and up again: the bits shifted out do not come back. -/
theorem fracmask_eq_shl_shrU (w : Word) (frac : Nat) :
    fracmask w frac = shl (shrU w (lowBit frac)) (lowBit frac) := by
  apply BitVec.eq_of_getLsbD_eq
  intro j hj
  rw [getLsbD_fracmask w frac hj, getLsbD_shl _ (lowBit_lt frac) hj, getLsbD_shrU _ (lowBit_lt frac), Bool.and_comm]
  by_cases hlow : lowBit frac ≤ j
  · rw [Nat.add_sub_cancel' hlow]
  · simp [hlow]

/-- On the unsigned value the mask rounds down to a multiple of `2^-F` (R104). -/
theorem uval_fracmask (w : Word) (frac : Nat) :
    uval (fracmask w frac) = uval w / 2 ^ lowBit frac * 2 ^ lowBit frac := by
  have hlt : uval w / 2 ^ lowBit frac * 2 ^ lowBit frac < 2 ^ 128 := (Nat.div_mul_le_self _ _).trans_lt w.isLt
  rw [fracmask_eq_shl_shrU, uval_shl _ (lowBit_lt frac), uval_shrU _ (lowBit_lt frac), Nat.mod_eq_of_lt hlt]

/-- On the signed value too: the mask keeps bit 127, and `2^128` is a multiple of `2^(64-F)` (R104). -/
theorem sval_fracmask (w : Word) (frac : Nat) :
    sval (fracmask w frac) = sval w / 2 ^ lowBit frac * 2 ^ lowBit frac := by
  have hsign : (fracmask w frac).getLsbD 127 = w.getLsbD 127 := by
    rw [getLsbD_fracmask w frac (by omega), decide_eq_true (Nat.le_of_lt_succ (lowBit_lt frac)), Bool.and_true]
  have hword : (2 : Int) ^ 128 = 2 ^ (128 - lowBit frac) * 2 ^ lowBit frac := by
    rw [← pow_add, Nat.sub_add_cancel (lowBit_lt frac).le]
  have hfloor : (uval (fracmask w frac) : Int) = uval w / 2 ^ lowBit frac * 2 ^ lowBit frac :=
    mod_cast uval_fracmask w frac
  rw [sval_eq_uval_sub, sval_eq_uval_sub w, hsign, hfloor]
  split_ifs
  · rw [hword, Int.sub_mul_ediv_right _ _ (by positivity), sub_mul]
  · rw [sub_zero, sub_zero]

/-- Settles O40: the mask in bits, and rounding down on both readings. -/
theorem fracmaskRoundsDown : Obligations.FracmaskRoundsDown := by
  intro w frac _
  refine ⟨fun j => ?_, sval_fracmask w frac, uval_fracmask w frac⟩
  by_cases hj : j < 128
  · exact getLsbD_fracmask w frac hj
  · simp [BitVec.getLsbD_of_ge _ j (Nat.le_of_not_lt hj)]

/-- Settles O41: every `I` from -62 to 64 is that of a valid format, one with 63 FracBits. -/
theorem extCopiesSignBit : Obligations.ExtCopiesSignBit := by
  intro w i sg hlo hhi j hj
  have hvalid : Fmt.Valid ⟨i, 63⟩ := ⟨hhi, by simp only; omega, le_rfl⟩
  exact getLsbD_ext hvalid w sg hj

section
variable {f : Fmt} (hf : f.Valid)
include hf

/-- Signed, `ext` cuts the word off above bit `63 + I` and sign-extends what is left (R105). -/
theorem ext_signed_eq_signExtend (w : Word) :
    ext w f.int .signed = (w.setWidth (aboveTop f.int)).signExtend 128 := by
  obtain ⟨-, -, habove⟩ := bit_bounds_of_valid hf
  rw [habove]
  apply BitVec.eq_of_getLsbD_eq
  intro j hj
  rw [getLsbD_ext hf w _ hj, BitVec.getLsbD_signExtend, BitVec.msb_eq_getLsbD_last, BitVec.getLsbD_setWidth,
    BitVec.getLsbD_setWidth]
  by_cases hle : j ≤ topBit f.int
  · simp [hj, hle, Nat.lt_succ_of_le hle]
  · simp [hj, hle, show ¬ j < topBit f.int + 1 by omega]

/-- Unsigned, `ext` cuts the word off above bit `63 + I` and puts zeros there (R105). -/
theorem ext_unsigned_eq_setWidth (w : Word) :
    ext w f.int .unsigned = (w.setWidth (aboveTop f.int)).setWidth 128 := by
  obtain ⟨-, -, habove⟩ := bit_bounds_of_valid hf
  rw [habove]
  apply BitVec.eq_of_getLsbD_eq
  intro j hj
  rw [getLsbD_ext hf w _ hj, BitVec.getLsbD_setWidth, BitVec.getLsbD_setWidth]
  by_cases hle : j ≤ topBit f.int
  · simp [hj, hle, Nat.lt_succ_of_le hle]
  · simp [hle, show ¬ j < topBit f.int + 1 by omega]

/-- Signed, `ext` wraps the value modulo `2^I` (R105, R106). -/
theorem sval_ext (w : Word) : sval (ext w f.int .signed) = Int.bmod (sval w) (2 ^ aboveTop f.int) := by
  obtain ⟨-, htop, habove⟩ := bit_bounds_of_valid hf
  have hle : aboveTop f.int ≤ 128 := by omega
  rw [ext_signed_eq_signExtend hf, sval, BitVec.toInt_signExtend_of_le hle, BitVec.toInt_setWidth, sval,
    BitVec.toInt_eq_toNat_bmod, Int.bmod_bmod_of_dvd (pow_dvd_pow 2 hle)]

/-- Unsigned, `ext` wraps the value modulo `2^I` (R105, R106). -/
theorem uval_ext (w : Word) : uval (ext w f.int .unsigned) = uval w % 2 ^ aboveTop f.int := by
  have hlt : w.toNat % 2 ^ aboveTop f.int < 2 ^ 128 := (Nat.mod_le _ _).trans_lt w.isLt
  rw [ext_unsigned_eq_setWidth hf, uval, BitVec.toNat_setWidth, BitVec.toNat_setWidth, Nat.mod_eq_of_lt hlt, uval]

/-- The mask and the extension commute: the mask keeps the sign position (R106). -/
theorem norm_eq_fracmask_ext (w : Word) (sg : Sign) : norm w f sg = fracmask (ext w f.int sg) f.frac := by
  obtain ⟨hlow, -, -⟩ := bit_bounds_of_valid hf
  apply BitVec.eq_of_getLsbD_eq
  intro j hj
  rw [getLsbD_norm hf w sg hj, getLsbD_fracmask _ _ hj, getLsbD_ext hf w sg hj]
  split_ifs with hle
  · rfl
  · rw [decide_eq_true (show lowBit f.frac ≤ j by omega), Bool.and_true]

theorem sval_norm (w : Word) : sval (norm w f .signed) =
    Int.bmod (sval w / 2 ^ lowBit f.frac * 2 ^ lowBit f.frac) (2 ^ aboveTop f.int) := by
  rw [norm, sval_ext hf, sval_fracmask]

theorem uval_norm (w : Word) : uval (norm w f .unsigned) =
    uval w / 2 ^ lowBit f.frac * 2 ^ lowBit f.frac % 2 ^ aboveTop f.int := by
  rw [norm, uval_ext hf, uval_fracmask]

end

/-- Settles O42: `norm` in either order, and its two steps on each reading. -/
theorem normFloorsAndWraps : Obligations.NormFloorsAndWraps :=
  fun w _ hf => ⟨norm_eq_fracmask_ext hf w, sval_norm hf w, uval_norm hf w⟩

end Sys2Proof.Machine
end

section
/-! Canonical words are those that the mask and `ext` both leave unchanged, each a condition on bits and on the
value; the overflow test is the second of them (spec/41_format_logic.md R103, R107, R108). -/

namespace Sys2Proof.Machine

theorem fracmask_eq_self_iff_bits {w : Word} {frac : Nat} :
    fracmask w frac = w ↔ ∀ j, j < lowBit frac → w.getLsbD j = false := by
  have hlow := lowBit_lt frac
  constructor
  · intro h j hj
    rw [← h, getLsbD_fracmask w frac (by omega), decide_eq_false (by omega), Bool.and_false]
  · intro hzero
    apply BitVec.eq_of_getLsbD_eq
    intro j hj
    rw [getLsbD_fracmask w frac hj]
    by_cases hle : lowBit frac ≤ j
    · simp [hle]
    · simp [hzero j (by omega)]

/-- The mask leaves a word unchanged exactly when its unsigned value is a multiple of `2^-F`. -/
theorem fracmask_eq_self_iff_dvd_uval {w : Word} {frac : Nat} :
    fracmask w frac = w ↔ 2 ^ lowBit frac ∣ uval w := by
  rw [Nat.dvd_iff_div_mul_eq, ← uval_fracmask]
  exact BitVec.toNat_inj.symm

/-- The mask leaves a word unchanged exactly when its signed value is a multiple of `2^-F`. -/
theorem fracmask_eq_self_iff_dvd_sval {w : Word} {frac : Nat} :
    fracmask w frac = w ↔ (2 ^ lowBit frac : Int) ∣ sval w := by
  constructor
  · intro h
    rw [← h, sval_fracmask]
    exact Int.dvd_mul_left _ _
  · intro h
    apply BitVec.eq_of_toInt_eq
    calc sval (fracmask w frac) = sval w / 2 ^ lowBit frac * 2 ^ lowBit frac := sval_fracmask w frac
      _ = sval w := Int.ediv_mul_cancel h

/-- A multiple of `2^l` below `2^t` is at most one step of `2^l` short of it. -/
theorem lt_two_pow_iff_le_of_dvd {x : Int} {l t : Nat} (hlt : l ≤ t) (hx : 2 ^ l ∣ x) :
    x < 2 ^ t ↔ x ≤ 2 ^ t - 2 ^ l := by
  have hpos : (0 : Int) < 2 ^ l := by positivity
  constructor
  · intro h
    have := Int.le_of_dvd (sub_pos.2 h) (dvd_sub (pow_dvd_pow 2 hlt) hx)
    omega
  · intro h
    omega

section
variable {f : Fmt} (hf : f.Valid) {w : Word}
include hf

theorem ext_eq_self_iff_bits {sg : Sign} :
    ext w f.int sg = w ↔ ∀ j, topBit f.int < j → j < 128 →
      w.getLsbD j = (decide (sg = .signed) && w.getLsbD (topBit f.int)) := by
  constructor
  · intro h j hj hj'
    conv_lhs => rw [← h]
    rw [getLsbD_ext hf w sg hj', if_neg (by omega)]
  · intro hcopy
    apply BitVec.eq_of_getLsbD_eq
    intro j hj
    rw [getLsbD_ext hf w sg hj]
    split_ifs with hle
    · rfl
    · exact (hcopy j (by omega) hj).symm

/-- Signed, `ext` leaves a word unchanged exactly when its value fits `I` integer bits. -/
theorem ext_signed_eq_self_iff_range :
    ext w f.int .signed = w ↔ -2 ^ topBit f.int ≤ sval w ∧ sval w < 2 ^ topBit f.int := by
  obtain ⟨-, htop, -⟩ := bit_bounds_of_valid hf
  rw [ext_eq_self_iff_bits hf, ← signCopied_iff_sval_range htop]
  simp

/-- Unsigned, `ext` leaves a word unchanged exactly when its value fits `I` integer bits. -/
theorem ext_unsigned_eq_self_iff_lt : ext w f.int .unsigned = w ↔ uval w < 2 ^ aboveTop f.int := by
  obtain ⟨-, -, habove⟩ := bit_bounds_of_valid hf
  rw [ext_eq_self_iff_bits hf, habove, ← highZero_iff_uval_lt]
  simp

theorem canonical_iff_fixed {sg : Sign} :
    canonical w f sg = true ↔ fracmask w f.frac = w ∧ ext w f.int sg = w := by
  rw [canonical_iff_bits hf, fracmask_eq_self_iff_bits, ext_eq_self_iff_bits hf]

/-- A format at least as wide in both parts has fewer bits that must be zero or copies (R107). -/
theorem canonical_of_wider {f' : Fmt} (hf' : f'.Valid) (hint : f.int ≤ f'.int) (hfrac : f.frac ≤ f'.frac)
    {sg : Sign} (h : canonical w f sg = true) : canonical w f' sg = true := by
  obtain ⟨hzero, hcopy⟩ := (canonical_iff_bits hf).1 h
  have hlow : lowBit f'.frac ≤ lowBit f.frac := by
    unfold lowBit
    omega
  have htop : topBit f.int ≤ topBit f'.int := by
    unfold topBit
    omega
  obtain ⟨-, htop', -⟩ := bit_bounds_of_valid hf'
  refine (canonical_iff_bits hf').2 ⟨fun j hj => hzero j (by omega), fun j hj hj' => ?_⟩
  rw [hcopy j (by omega) hj']
  rcases htop.eq_or_lt with heq | hlt
  · rw [heq]
  · rw [hcopy _ hlt htop', ← Bool.and_assoc, Bool.and_self]

/-- The signed test is false exactly when the bits from `63 + I` up are all alike (R108). -/
theorem testovf_signed_eq_false_iff_bits :
    testovf w f.int .signed = false ↔ ∀ j, topBit f.int < j → j < 128 → w.getLsbD j = w.getLsbD (topBit f.int) := by
  obtain ⟨hlow, htop, -⟩ := bit_bounds_of_valid hf
  have hpos : 128 - topBit f.int < 128 := by
    have := hf.2.2
    unfold lowBit at hlow
    omega
  refine ⟨fun h j hj hj' => getLsbD_eq_of_testovf_false hf h hj hj', fun halike => ?_⟩
  have hfield : ∀ k, k < 128 →
      (shrU w (topBit f.int)).getLsbD k = (decide (k < 128 - topBit f.int) && w.getLsbD (topBit f.int)) := by
    intro k _
    rw [getLsbD_shrU w htop]
    by_cases hk : topBit f.int + k < 128
    · rw [decide_eq_true (by omega), Bool.true_and]
      rcases Nat.eq_zero_or_pos k with rfl | hk0
      · rfl
      · exact halike _ (by omega) hk
    · rw [BitVec.getLsbD_of_ge w _ (by omega), decide_eq_false (by omega), Bool.false_and]
  have hfill : shrU w (topBit f.int) = 0 ∨ shrU w (topBit f.int) = lowmask (128 - topBit f.int) := by
    cases hsign : w.getLsbD (topBit f.int) with
    | false => exact .inl (BitVec.eq_of_getLsbD_eq fun k hk => by simp [hfield k hk, hsign])
    | true =>
      exact .inr (BitVec.eq_of_getLsbD_eq fun k hk => by rw [hfield k hk, hsign, getLsbD_lowmask hpos, Bool.and_true])
  rcases hfill with h | h <;> simp [testovf, h]

/-- The unsigned test is false exactly when the value is below `2^I` (R108). -/
theorem testovf_unsigned_eq_false_iff_lt :
    testovf w f.int .unsigned = false ↔ uval w < 2 ^ aboveTop f.int := by
  by_cases h64 : f.int = 64
  · have hlt : uval w < 2 ^ 128 := w.isLt
    simpa [testovf, h64, aboveTop] using hlt
  · have habove : aboveTop f.int < 128 := by
      have := hf.1
      unfold aboveTop
      omega
    calc testovf w f.int .unsigned = false ↔ shrU w (aboveTop f.int) = 0 := by simp [testovf, h64]
      _ ↔ uval (shrU w (aboveTop f.int)) = 0 := BitVec.toNat_inj.symm
      _ ↔ uval w < 2 ^ aboveTop f.int := by
        rw [uval_shrU w habove, Nat.div_eq_zero_iff_lt (by positivity)]

/-- The test is false exactly when `ext` changes nothing (R108). -/
theorem testovf_eq_false_iff_ext {sg : Sign} : testovf w f.int sg = false ↔ ext w f.int sg = w := by
  cases sg with
  | signed => rw [testovf_signed_eq_false_iff_bits hf, ext_eq_self_iff_bits hf]; simp
  | unsigned => rw [testovf_unsigned_eq_false_iff_lt hf, ext_unsigned_eq_self_iff_lt hf]

/-- A canonical word never tests true (R108). -/
theorem testovf_eq_false_of_canonical {sg : Sign} (h : canonical w f sg = true) : testovf w f.int sg = false :=
  (testovf_eq_false_iff_ext hf).2 ((canonical_iff_fixed hf).1 h).2

end

/-- Settles O43: the conditions on the bits, `norm`, zero and widening. -/
theorem canonicalWords : Obligations.CanonicalWords :=
  fun w _ sg hf => ⟨canonical_iff_bits hf, canonical_norm hf w sg, canonical_zero hf sg,
    fun _ hf' hint hfrac h => canonical_of_wider hf hf' hint hfrac h⟩

/-- Settles O39: the mask leaves the multiples of `2^-F` and `ext` the values in range unchanged. -/
theorem canonicalWordsAreRepresentableValues : Obligations.CanonicalWordsAreRepresentableValues := by
  intro f w hf
  obtain ⟨hlow, -, habove⟩ := bit_bounds_of_valid hf
  constructor
  · rw [canonical_iff_fixed hf, fracmask_eq_self_iff_dvd_sval, ext_signed_eq_self_iff_range hf]
    refine and_congr_right fun hdvd => and_congr_right fun _ => ?_
    exact lt_two_pow_iff_le_of_dvd hlow hdvd
  · rw [canonical_iff_fixed hf, fracmask_eq_self_iff_dvd_uval, ext_unsigned_eq_self_iff_lt hf]
    refine and_congr_right fun hdvd => ?_
    have hdvd' : (2 : Int) ^ lowBit f.frac ∣ uval w := mod_cast hdvd
    rw [← lt_two_pow_iff_le_of_dvd (by omega) hdvd']
    norm_cast

/-- Settles O44: the signed field compared with its top bit instead of its bottom one, and the unsigned field as a
bound on the value. -/
theorem overflowTest : Obligations.OverflowTest := by
  intro w f hf
  obtain ⟨-, htop, -⟩ := bit_bounds_of_valid hf
  refine ⟨?_, ?_, fun _ => testovf_eq_false_iff_ext hf, fun _ => testovf_eq_false_of_canonical hf⟩
  · rw [testovf_signed_eq_false_iff_bits hf]
    constructor
    · intro halike
      have hcopy : ∀ j, topBit f.int ≤ j → j < 128 → w.getLsbD j = w.getLsbD (topBit f.int) := fun j hj hj' =>
        hj.eq_or_lt.elim (fun heq => by rw [heq]) fun hlt => halike j hlt hj'
      intro j hj hj'
      rw [hcopy j hj hj', hcopy 127 (by omega) (by omega)]
    · intro halike j hj hj'
      rw [halike j hj.le hj', halike _ le_rfl htop]
  · rw [testovf_unsigned_eq_false_iff_lt hf, highZero_iff_uval_lt]

end Sys2Proof.Machine
end

section
/-! Rounding and saturation: what the rounding multiplexer adds before the mask rounds down, and what the clamps
read after it (spec/41_format_logic.md R109 to R111). -/

namespace Sys2Proof.Machine

/-- Half a unit of the last place added, where it fits (R109). -/
theorem sval_adjust_rnd {w : Word} {frac : Nat} (sg : Sign) (h : sval w + 2 ^ (63 - frac) < 2 ^ 127) :
    sval (adjust w frac .rnd sg) = sval w + 2 ^ (63 - frac) := by
  have hbias : sval (bit (63 - frac)) = 2 ^ (63 - frac) := sval_bit (by omega)
  have hpos : (0 : Int) < 2 ^ (63 - frac) := by positivity
  obtain ⟨hlo, -⟩ := sval_range w
  rw [adjust, sval_wadd_of_range (by omega) (by omega), hbias]

theorem uval_adjust_rnd {w : Word} {frac : Nat} (sg : Sign) (h : uval w + 2 ^ (63 - frac) < 2 ^ 128) :
    uval (adjust w frac .rnd sg) = uval w + 2 ^ (63 - frac) := by
  rw [adjust, uval_wadd, uval_bit (by omega), Nat.mod_eq_of_lt h]

/-- Settles O45: the mask rounds the sum down. -/
theorem roundHalfUp : Obligations.RoundHalfUp := by
  intro w frac _
  constructor
  · intro h
    rw [sval_fracmask, sval_adjust_rnd _ h]
  · intro h
    rw [uval_fracmask, uval_adjust_rnd _ h]

/-- One less than the divisor added to a negative dividend makes rounding down truncation toward zero. -/
theorem add_sub_one_ediv_eq_tdiv {x d : Int} (hx : x < 0) (hd : 0 < d) : (x + (d - 1)) / d = x.tdiv d := by
  have hq : x.tdiv d = -(-x / d) := by
    rw [← Int.tdiv_eq_ediv_of_nonneg (by omega), Int.neg_tdiv, neg_neg]
  have hle : -x / d * d ≤ -x := Int.ediv_mul_le _ hd.ne'
  have hlt : -x < (-x / d + 1) * d := Int.lt_ediv_add_one_mul_self _ hd
  rw [hq, Int.ediv_eq_iff_of_pos hd]
  constructor <;> linarith

/-- The RTZ adjustment of a negative word, which cannot pass bit 127 (R110). -/
theorem sval_adjust_rtz_of_neg {w : Word} {frac : Nat} (hneg : sval w < 0) :
    sval (adjust w frac .rtz .signed) = sval w + (2 ^ lowBit frac - 1) := by
  have hadd : sval (lowmask (lowBit frac)) = 2 ^ lowBit frac - 1 := sval_lowmask (lowBit_lt frac)
  have hpos : (0 : Int) < 2 ^ lowBit frac := by positivity
  have hle : (2 : Int) ^ lowBit frac ≤ 2 ^ 127 :=
    pow_le_pow_right₀ (by norm_num) (Nat.le_of_lt_succ (lowBit_lt frac))
  obtain ⟨hlo, -⟩ := sval_range w
  rw [adjust, if_pos ⟨rfl, getLsbD_sign_eq_true_iff.2 hneg⟩, sval_wadd_of_range (by omega) (by omega), hadd]

theorem adjust_rtz_of_nonneg {w : Word} {frac : Nat} (hnonneg : 0 ≤ sval w) : adjust w frac .rtz .signed = w :=
  if_neg fun h => absurd (getLsbD_sign_eq_true_iff.1 h.2) (not_lt.2 hnonneg)

/-- Settles O46: a negative value is moved up before the mask rounds it down, and no other word is changed. -/
theorem roundTowardZero : Obligations.RoundTowardZero := by
  intro w frac _
  have hpos : (0 : Int) < 2 ^ lowBit frac := by positivity
  refine ⟨?_, rfl⟩
  rcases lt_or_ge (sval w) 0 with hneg | hnonneg
  · rw [sval_fracmask, sval_adjust_rtz_of_neg hneg, add_sub_one_ediv_eq_tdiv hneg hpos]
  · rw [adjust_rtz_of_nonneg hnonneg, sval_fracmask, Int.tdiv_eq_ediv_of_nonneg hnonneg]

section
variable {w : Word} {f : Fmt}

theorem saturate_of_testovf_false (h : testovf w f.int .signed = false) : saturate w f = fracmask w f.frac := by
  simp [saturate, h]

theorem saturate_of_overflow_neg (h : testovf w f.int .signed = true) (hsign : w.getLsbD 127 = true) :
    saturate w f = fracmask (~~~ lowmask (topBit f.int)) f.frac := by
  simp only [saturate, h, hsign, if_true]

theorem saturate_of_overflow_nonneg (h : testovf w f.int .signed = true) (hsign : w.getLsbD 127 = false) :
    saturate w f = fracmask (lowmask (topBit f.int)) f.frac := by
  simp only [saturate, h, hsign, Bool.false_eq_true, if_true, if_false]

variable (hf : f.Valid)
include hf

/-- The negative clamp is `-2^(I-1)`, which the mask leaves as it is (R111). -/
theorem sval_negative_clamp : sval (fracmask (~~~ lowmask (topBit f.int)) f.frac) = -2 ^ topBit f.int := by
  obtain ⟨hlow, htop, -⟩ := bit_bounds_of_valid hf
  have hclamp : sval (~~~ lowmask (topBit f.int)) = -2 ^ topBit f.int := by
    rw [sval_not, sval_lowmask htop]
    ring
  rw [sval_fracmask, hclamp, Int.ediv_mul_cancel (Int.dvd_neg.2 (pow_dvd_pow 2 hlow))]

/-- The positive clamp after the mask is `2^(I-1) - 2^-F` (R111). -/
theorem sval_positive_clamp :
    sval (fracmask (lowmask (topBit f.int)) f.frac) = 2 ^ topBit f.int - 2 ^ lowBit f.frac := by
  obtain ⟨hlow, htop, -⟩ := bit_bounds_of_valid hf
  have hpos : (0 : Int) < 2 ^ lowBit f.frac := by positivity
  have hsplit : (2 : Int) ^ topBit f.int = 2 ^ (topBit f.int - lowBit f.frac) * 2 ^ lowBit f.frac := by
    rw [← pow_add, Nat.sub_add_cancel hlow]
  have hquot : ((2 : Int) ^ topBit f.int - 1) / 2 ^ lowBit f.frac = 2 ^ (topBit f.int - lowBit f.frac) - 1 := by
    rw [Int.ediv_eq_iff_of_pos hpos, hsplit]
    constructor <;> linarith
  rw [sval_fracmask, sval_lowmask htop, hquot, sub_mul, ← hsplit, one_mul]

/-- With 64 IntBits every word is in range (R108). -/
theorem testovf_signed_eq_false_of_int_64 (h64 : f.int = 64) : testovf w f.int .signed = false := by
  rw [testovf_eq_false_iff_ext hf, ext, if_pos h64]

end

/-- Settles O47: the three branches of saturation, and its result canonical. -/
theorem saturateClamps : Obligations.SaturateClamps := by
  intro w f hf
  refine ⟨saturate_of_testovf_false, fun h hsign => ?_, fun h hsign => ?_, canonical_saturate hf w,
    testovf_eq_false_of_canonical hf (canonical_saturate hf w),
    fun h64 => saturate_of_testovf_false (testovf_signed_eq_false_of_int_64 hf h64)⟩
  · rw [saturate_of_overflow_neg h hsign, sval_negative_clamp hf]
  · rw [saturate_of_overflow_nonneg h hsign, sval_positive_clamp hf]

end Sys2Proof.Machine
end

section
/-! Commands one at a time: the fields of the word, the faults of a command without a divisor, and what such a command
answers on canonical operands (spec/30_encoding.md R58; 60_exceptions.md R191 to R195; 10_state.md R9, R23). -/

namespace Sys2Proof.Machine

/-- The word of an instruction holds the fields it was encoded with (R51). -/
theorem encodedAs_of_encodeFields {i : Instr} {op : BitVec 6} {rm : BitVec 2} (hop : (encodeFields i).op = op)
    (hrm : (encodeFields i).rm = rm) : EncodedAs i op rm := by
  rw [EncodedAs, encode, Fields.ofCommand_toCommand]
  exact ⟨hop, hrm⟩

section frame
variable (s : State)

theorem onlyRegister_writeW (rd : Reg) (v : Word) : OnlyRegister s (writeW s rd v) rd :=
  ⟨fun _ hr => readW_writeW_other s rd v hr, ⟨rfl, rfl, rfl⟩, ⟨rfl, rfl⟩, rfl, rfl, rfl, rfl⟩

theorem onlyDout_writeDout (v : Word) : OnlyDout s (writeDout s v) :=
  ⟨fun _ => rfl, ⟨rfl, rfl, rfl⟩, ⟨rfl, rfl⟩, rfl, rfl, rfl⟩

theorem onlyFlags_writeOvf (b : Bool) : OnlyFlags s (writeOvf s b) :=
  ⟨fun _ => rfl, ⟨rfl, rfl⟩, rfl, rfl, rfl, rfl⟩

end frame

section exec
variable {i : Instr} {s : State}

theorem operandsCanonical_of_none (hreads : readsUnder i = []) : OperandsCanonical i s := by
  simp [OperandsCanonical, hreads]

theorem operandsCanonical_of_one {ra : Reg} {fa : Fmt} {sg : Sign} (hreads : readsUnder i = [(ra, fa, sg)])
    (hcan : canonical (readW s ra) fa sg = true) : OperandsCanonical i s := by
  simpa [OperandsCanonical, hreads] using hcan

variable (hs : s.cause = .none)
include hs

/-- `ILL` before `NCN`, and `NCN` before all that follows the operand check (R191, R192, R194). -/
theorem faultsIllNcn_of_not_faulted : FaultsIllNcn i s := by
  constructor
  · intro hill
    rw [exec_eq_runCommand, runCommand_of_ill hs hill]
  · intro hi hcan
    rw [exec_eq_runCommand, commandBody, if_neg hcan, runCommand_of_error hs hi]

variable (hi : i.wellFormed = true) (hdiv : divisor i = none) (hcan : OperandsCanonical i s)
include hi hdiv hcan

/-- A well-formed command without a divisor makes its one write on canonical operands. -/
theorem exec_of_operandsCanonical : exec i s = .next ((effect (readW s) s.din i).apply s) := by
  rw [exec_eq_runCommand, commandBody, if_pos hcan, if_pos (divisorNotZero_of_none hdiv), runCommand_of_ok hs hi]

/-- Where that write is to a register, the command completes with the word it writes there. -/
theorem completesWith_of_effect_register {rd : Reg} {v : Word} (heffect : effect (readW s) s.din i = .register rd v) :
    CompletesWith i s rd v := by
  refine ⟨writeW s rd v, ?_, onlyRegister_writeW s rd v, readW_writeW_same s rd v⟩
  rw [exec_of_operandsCanonical hs hi hdiv hcan, heffect, Effect.apply]

end exec

end Sys2Proof.Machine
end

section
/-! Conversion when no fractional bit is dropped: what the rounding multiplexer adds stays below the lowest declared
bit, and the mask removes it (spec/41_format_logic.md R104, R110; 42_convert.md R127 to R129). -/

namespace Sys2Proof.Machine

/-- Conversion toward zero adds `lowmask(64 - F)` to a negative signed word first (R110). -/
theorem convert_rtz (w : Word) (f : Fmt) (sg : Sign) :
    convert w f .rtz sg = if sg = .signed ∧ w.getLsbD 127 = true then norm (wadd w (lowmask (64 - f.frac))) f sg
      else norm w f sg :=
  apply_ite (norm · f sg) _ _ _

/-- A word canonical under a format has no bits that the mask of as many FracBits or more would clear. -/
theorem fracmask_eq_self_of_canonical {f : Fmt} (hf : f.Valid) {w : Word} {sg : Sign} (h : canonical w f sg = true)
    {frac : Nat} (hfrac : f.frac ≤ frac) : fracmask w frac = w := by
  have hlow : lowBit frac ≤ lowBit f.frac := Nat.sub_le_sub_left hfrac 64
  have hmask : fracmask w f.frac = w := ((canonical_iff_fixed hf).1 h).1
  exact fracmask_eq_self_iff_dvd_uval.2 ((pow_dvd_pow 2 hlow).trans (fracmask_eq_self_iff_dvd_uval.1 hmask))

/-- What is added below the lowest declared bit of a masked word carries into no declared bit: the mask removes it. -/
theorem fracmask_wadd_of_lt {w b : Word} {frac : Nat} (hw : fracmask w frac = w) (hb : uval b < 2 ^ lowBit frac) :
    fracmask (wadd w b) frac = w := by
  have hdvd : 2 ^ lowBit frac ∣ uval w := fracmask_eq_self_iff_dvd_uval.1 hw
  have hroom : (uval w : Int) ≤ 2 ^ 128 - 2 ^ lowBit frac :=
    (lt_two_pow_iff_le_of_dvd (lowBit_lt frac).le (mod_cast hdvd)).1 (mod_cast w.isLt)
  have hfits : uval w + uval b < 2 ^ 128 := by
    zify at hb ⊢
    omega
  apply BitVec.eq_of_toNat_eq
  calc uval (fracmask (wadd w b) frac)
      = (uval w + uval b) / 2 ^ lowBit frac * 2 ^ lowBit frac := by
        rw [uval_fracmask, uval_wadd, Nat.mod_eq_of_lt hfits]
    _ = uval w / 2 ^ lowBit frac * 2 ^ lowBit frac := by
        rw [Nat.add_div_of_dvd_right hdvd, Nat.div_eq_of_lt hb, add_zero]
    _ = uval w := Nat.div_mul_cancel hdvd

/-- A word that the mask of the target leaves unchanged converts alike under every rounding mode (R128, R129). -/
theorem convert_eq_norm_of_fracmask_eq_self {w : Word} {f : Fmt} (hfrac : f.frac ≤ 63) (hw : fracmask w f.frac = w)
    (rm : Rounding) (sg : Sign) : convert w f rm sg = norm w f sg := by
  have hnorm : ∀ b, uval b < 2 ^ lowBit f.frac → norm (wadd w b) f sg = norm w f sg := fun b hb => by
    rw [norm, norm, fracmask_wadd_of_lt hw hb, hw]
  cases rm with
  | trn => rfl
  | rnd =>
    have hbias : uval (bit (63 - f.frac)) < 2 ^ lowBit f.frac := by
      rw [uval_bit (by omega)]
      exact Nat.pow_lt_pow_right one_lt_two (by unfold lowBit; omega)
    rw [convert_rnd, hnorm _ hbias]
  | rtz =>
    have hmask : uval (lowmask (lowBit f.frac)) < 2 ^ lowBit f.frac := by
      rw [uval_lowmask (lowBit_lt f.frac)]
      exact Nat.sub_one_lt (by positivity)
    rw [convert_rtz, show 64 - f.frac = lowBit f.frac from rfl, hnorm _ hmask, ite_self]

/-- Adding `lowmask(64 - F)` to a negative word does not wrap (R129). -/
theorem sval_wadd_lowmask_of_sign {w : Word} {frac : Nat} (hsign : w.getLsbD 127 = true) :
    sval (wadd w (lowmask (64 - frac))) = sval w + (2 ^ (64 - frac) - 1) := by
  have hadjust : adjust w frac .rtz .signed = wadd w (lowmask (64 - frac)) := if_pos ⟨rfl, hsign⟩
  rw [← hadjust]
  exact sval_adjust_rtz_of_neg (getLsbD_sign_eq_true_iff.1 hsign)

end Sys2Proof.Machine
end

section
/-! The statements on PUT, GET, CVT, SAT and TOVF (spec/42_convert.md R121 to R131). -/

namespace Sys2Proof.Machine

/-- Settles O20: PUT reads no operand, so a valid format is all it needs to write its conversion. -/
theorem putTrnMasksAndWraps : Obligations.PutTrnMasksAndWraps := by
  intro rd sg f s hs
  refine ⟨encodedAs_of_encodeFields rfl rfl, faultsIllNcn_of_not_faulted hs, fun hf => ?_⟩
  have hi : Instr.wellFormed (.putTrn rd sg f) = true := decide_eq_true hf
  exact completesWith_of_effect_register hs hi rfl (operandsCanonical_of_none rfl) rfl

/-- Settles O21: as for PUT.TRN, with the conversion that adds the rounding bias. -/
theorem putRndRoundsAndWraps : Obligations.PutRndRoundsAndWraps := by
  intro rd sg f s hs
  refine ⟨encodedAs_of_encodeFields rfl rfl, faultsIllNcn_of_not_faulted hs, fun hf => ?_⟩
  have hi : Instr.wellFormed (.putRnd rd sg f) = true := decide_eq_true hf
  exact completesWith_of_effect_register hs hi rfl (operandsCanonical_of_none rfl) rfl

/-- Settles O22: as for PUT.TRN, with the two branches of the conversion toward zero. -/
theorem putRtzTruncatesTowardZero : Obligations.PutRtzTruncatesTowardZero := by
  intro rd sg f s hs
  refine ⟨encodedAs_of_encodeFields rfl rfl, faultsIllNcn_of_not_faulted hs, fun hf => ?_⟩
  rw [← convert_rtz]
  have hi : Instr.wellFormed (.putRtz rd sg f) = true := decide_eq_true hf
  exact completesWith_of_effect_register hs hi rfl (operandsCanonical_of_none rfl) rfl

/-- Settles O23: GET is always well formed and reads its register under no format. -/
theorem getCopiesRegister : Obligations.GetCopiesRegister := by
  intro ra s hs
  exact ⟨encodedAs_of_encodeFields rfl rfl, writeDout s (readW s ra),
    exec_of_operandsCanonical hs rfl rfl (operandsCanonical_of_none rfl), onlyDout_writeDout s _, rfl⟩

/-- Settles O24: a wider format keeps the word canonical, so `norm` leaves it as it is. -/
theorem cvtTrnMasksAndWraps : Obligations.CvtTrnMasksAndWraps := by
  intro rd ra sg fa fb s hs
  refine ⟨encodedAs_of_encodeFields rfl rfl, faultsIllNcn_of_not_faulted hs, fun hfa hfb hcan => ⟨?_, ?_⟩⟩
  · have hi : Instr.wellFormed (.cvtTrn rd ra sg fa fb) = true := decide_eq_true ⟨hfa, hfb⟩
    exact completesWith_of_effect_register hs hi rfl (operandsCanonical_of_one rfl hcan) rfl
  · exact fun hint hfrac => canonical_iff.1 (canonical_of_wider hfa hfb hint hfrac hcan)

/-- Settles O25: with `Ft >= Fs` the mask of the target leaves a canonical source unchanged, so the bias is lost. -/
theorem cvtRndRoundsAndWraps : Obligations.CvtRndRoundsAndWraps := by
  intro rd ra sg fa fb s hs
  refine ⟨encodedAs_of_encodeFields rfl rfl, faultsIllNcn_of_not_faulted hs, fun hfa hfb hcan => ⟨?_, fun hfrac => ?_⟩⟩
  · have hi : Instr.wellFormed (.cvtRnd rd ra sg fa fb) = true := decide_eq_true ⟨hfa, hfb⟩
    exact completesWith_of_effect_register hs hi rfl (operandsCanonical_of_one rfl hcan) rfl
  · rw [← convert_rnd]
    exact convert_eq_norm_of_fracmask_eq_self hfb.2.2 (fracmask_eq_self_of_canonical hfa hcan hfrac) .rnd sg

/-- Settles O26: the word written is the conversion toward zero, read in its branches. -/
theorem cvtRtzTruncatesTowardZero : Obligations.CvtRtzTruncatesTowardZero := by
  intro rd ra sg fa fb s hs
  refine ⟨encodedAs_of_encodeFields rfl rfl, faultsIllNcn_of_not_faulted hs, fun hfa hfb hcan => ?_⟩
  refine ⟨convert (readW s ra) fb .rtz sg, ?_, convert_rtz _ _ _, fun hmask => ?_, sval_wadd_lowmask_of_sign⟩
  · have hi : Instr.wellFormed (.cvtRtz rd ra sg fa fb) = true := decide_eq_true ⟨hfa, hfb⟩
    exact completesWith_of_effect_register hs hi rfl (operandsCanonical_of_one rfl hcan) rfl
  · exact convert_eq_norm_of_fracmask_eq_self hfb.2.2 hmask .rtz sg

/-- Of the rows only SAT has opcode 4, and it asks for `S = 1` (R58). -/
theorem sign_of_selects_sat_opcode {f : Fields} {i : Instr} (h : f.Selects i) (hop : f.op = 0x04) : f.s = 1 := by
  cases i with
  | sat =>
    obtain ⟨-, -, hsign, -⟩ := h
    exact hsign
  | _ =>
    obtain ⟨hop', -⟩ := h
    exact absurd (hop'.symm.trans hop) (by decide)

/-- No word with opcode 4 and `S = 0` spells an instruction (R130). -/
theorem spells_eq_none_of_unsigned_sat {c : Command} (hop : (Fields.ofCommand c).op = 0x04)
    (hsign : (Fields.ofCommand c).s = 0) : spells c = none := by
  refine Option.eq_none_iff_forall_ne_some.2 fun i hi => ?_
  obtain ⟨hdec, -⟩ := spells_eq_some.1 hi
  obtain ⟨hsel, -⟩ := decode_eq_ok.1 hdec
  have hone := sign_of_selects_sat_opcode hsel hop
  rw [hsign] at hone
  exact absurd hone (by decide)

/-- Settles O27: the word written is the saturation of R111, whose branches and canonical result are O47's. -/
theorem satClampsToTarget : Obligations.SatClampsToTarget := by
  refine ⟨fun c hop hsign => spells_eq_none_of_unsigned_sat hop hsign, fun rd ra fa fb s hs => ?_⟩
  have hfaults : FaultsIllNcn (.sat rd ra fa fb) s := faultsIllNcn_of_not_faulted hs
  refine ⟨encodedAs_of_encodeFields rfl rfl, hfaults, fun hlt => ?_, fun hfa hfb hle hcan => ?_⟩
  · have hwider : ¬ (fa.Valid ∧ fb.Valid ∧ fb.int ≤ fa.int) := fun ⟨_, _, hle⟩ => hlt.not_ge hle
    exact hfaults.1 (decide_eq_false hwider)
  · obtain ⟨hkept, hneg, hnonneg, hresult, hinRange, -⟩ := saturateClamps (readW s ra) fb hfb
    refine ⟨saturate (readW s ra) fb, ?_, hresult, hinRange, ?_⟩
    · have hi : Instr.wellFormed (.sat rd ra fa fb) = true := decide_eq_true ⟨hfa, hfb, hle⟩
      exact completesWith_of_effect_register hs hi rfl (operandsCanonical_of_one rfl hcan) rfl
    · split_ifs with hovf hsign
      · exact hkept hovf
      · exact hneg (by simpa using hovf) hsign
      · exact hnonneg (by simpa using hovf) (by simpa using hsign)

/-- Settles O28: the source is canonical under every width at least its own, and 64 is one. -/
theorem tovfWritesOvf : Obligations.TovfWritesOvf := by
  intro ra sg fa it s hs
  refine ⟨encodedAs_of_encodeFields rfl rfl, faultsIllNcn_of_not_faulted hs, fun hfa hit hcan => ?_⟩
  have hwider : fa.int ≤ it → testovf (readW s ra) it sg = false := fun hle =>
    testovf_eq_false_of_canonical hit (canonical_of_wider hfa hit hle le_rfl hcan)
  refine ⟨writeOvf s (testovf (readW s ra) it sg), ?_, onlyFlags_writeOvf s _, rfl, rfl, rfl, hwider, fun h64 => ?_⟩
  · have hi : Instr.wellFormed (.tovf ra sg fa it) = true := decide_eq_true ⟨hfa, hit⟩
    exact exec_of_operandsCanonical hs hi rfl (operandsCanonical_of_one rfl hcan)
  · exact hwider (h64 ▸ hfa.1)

end Sys2Proof.Machine
end

section
/-! Readings computed in the integers: addition and subtraction of either readings, and what `norm` leaves of a word
given by an integer (spec/00_scope.md R7; 40_wideword.md R83, R84; 41_format_logic.md R103, R106). -/

namespace Sys2Proof.Machine

theorem value_signed (w : Word) : value w .signed = sval w := rfl

theorem value_unsigned (w : Word) : value w .unsigned = uval w := rfl

/-- A word is either of its readings, wrapped. -/
theorem ofInt_value (w : Word) (sg : Sign) : BitVec.ofInt 128 (value w sg) = w := by
  cases sg with
  | signed => exact BitVec.ofInt_toInt
  | unsigned => exact ofInt_toNat w

theorem wadd_eq_ofInt_value (a b : Word) (sg : Sign) : wadd a b = BitVec.ofInt 128 (value a sg + value b sg) := by
  rw [BitVec.ofInt_add, ofInt_value, ofInt_value, wadd]

theorem wsub_eq_ofInt_value (a b : Word) (sg : Sign) : wsub a b = BitVec.ofInt 128 (value a sg - value b sg) := by
  rw [ofInt_sub, ofInt_value, ofInt_value, wsub]

theorem wsub_zero_eq_ofInt_neg (a : Word) : wsub 0 a = BitVec.ofInt 128 (-sval a) := by
  have hzero : value 0 .signed = 0 := rfl
  rw [wsub_eq_ofInt_value 0 a .signed, hzero, zero_sub, value_signed]

theorem uval_ofInt (x : Int) : (uval (BitVec.ofInt 128 x) : Int) = x % 2 ^ 128 := by
  rw [uval, BitVec.toNat_ofInt]
  omega

/-- A multiple of `2^-F` stays one when it wraps to a word, so the mask leaves it unchanged. -/
theorem fracmask_ofInt_of_dvd {x : Int} {frac : Nat} (hx : 2 ^ lowBit frac ∣ x) :
    fracmask (BitVec.ofInt 128 x) frac = BitVec.ofInt 128 x := by
  have hword : (2 : Int) ^ lowBit frac ∣ 2 ^ 128 := pow_dvd_pow 2 (lowBit_lt frac).le
  have hdvd : (2 : Int) ^ lowBit frac ∣ uval (BitVec.ofInt 128 x) := by
    rw [uval_ofInt]
    exact (EuclideanDomain.dvd_mod_iff hword).2 hx
  exact fracmask_eq_self_iff_dvd_uval.2 (mod_cast hdvd)

/-- The integer is a value of `I` integer bits, in units of `2^-64` (R103). -/
def InRange (f : Fmt) (sg : Sign) (x : Int) : Prop :=
  match sg with
  | .signed => -2 ^ topBit f.int ≤ x ∧ x < 2 ^ topBit f.int
  | .unsigned => 0 ≤ x ∧ x < 2 ^ aboveTop f.int

section
variable {f : Fmt} (hf : f.Valid)
include hf

/-- A canonical word has a value in the range of its format, and a multiple of `2^-F` (R103). -/
theorem value_of_canonical {w : Word} {sg : Sign} (h : canonical w f sg = true) :
    InRange f sg (value w sg) ∧ 2 ^ lowBit f.frac ∣ value w sg := by
  obtain ⟨hmask, hext⟩ := (canonical_iff_fixed hf).1 h
  cases sg with
  | signed => exact ⟨(ext_signed_eq_self_iff_range hf).1 hext, fracmask_eq_self_iff_dvd_sval.1 hmask⟩
  | unsigned =>
    have hlt := (ext_unsigned_eq_self_iff_lt hf).1 hext
    have hdvd := fracmask_eq_self_iff_dvd_uval.1 hmask
    rw [value_unsigned]
    exact ⟨⟨Int.natCast_nonneg _, mod_cast hlt⟩, mod_cast hdvd⟩

variable {x : Int} (hdvd : 2 ^ lowBit f.frac ∣ x)
include hdvd

/-- Signed, `norm` wraps a multiple of `2^-F` modulo `2^I` and does nothing else to it (R106). -/
theorem sval_norm_ofInt : sval (norm (BitVec.ofInt 128 x) f .signed) = Int.bmod x (2 ^ aboveTop f.int) := by
  obtain ⟨-, htop, habove⟩ := bit_bounds_of_valid hf
  have hword : 2 ^ aboveTop f.int ∣ 2 ^ 128 := pow_dvd_pow 2 (by omega)
  rw [norm, fracmask_ofInt_of_dvd hdvd, sval_ext hf, sval, BitVec.toInt_ofInt, Int.bmod_bmod_of_dvd hword]

/-- Unsigned, `norm` reduces a multiple of `2^-F` modulo `2^I` and does nothing else to it (R106). -/
theorem uval_norm_ofInt : (uval (norm (BitVec.ofInt 128 x) f .unsigned) : Int) = x % 2 ^ aboveTop f.int := by
  obtain ⟨-, htop, habove⟩ := bit_bounds_of_valid hf
  have hword : (2 : Int) ^ aboveTop f.int ∣ 2 ^ 128 := pow_dvd_pow 2 (by omega)
  rw [norm, fracmask_ofInt_of_dvd hdvd, uval_ext hf]
  push_cast
  rw [uval_ofInt, Int.emod_emod_of_dvd _ hword]

/-- A multiple of `2^-F` in the range of the format is the value of its word after `norm` (R103, R106). -/
theorem value_norm_ofInt_of_inRange {sg : Sign} (hx : InRange f sg x) :
    value (norm (BitVec.ofInt 128 x) f sg) sg = x := by
  obtain ⟨-, -, habove⟩ := bit_bounds_of_valid hf
  cases sg with
  | signed =>
    obtain ⟨hlo, hhi⟩ := hx
    rw [value_signed, sval_norm_ofInt hf hdvd, habove]
    have hpow : (2 : Int) ^ (topBit f.int + 1) = 2 ^ topBit f.int * 2 := pow_succ _ _
    apply Int.bmod_eq_of_le <;> push_cast <;> omega
  | unsigned =>
    obtain ⟨hlo, hhi⟩ := hx
    rw [value_unsigned, uval_norm_ofInt hf hdvd, Int.emod_eq_of_lt hlo hhi]

/-- `norm` is the identity on such a word. -/
theorem norm_ofInt_of_inRange {sg : Sign} (hx : InRange f sg x) :
    norm (BitVec.ofInt 128 x) f sg = BitVec.ofInt 128 x := by
  conv_rhs => rw [← value_norm_ofInt_of_inRange hf hdvd hx, ofInt_value]

end

end Sys2Proof.Machine
end

section
/-! The sum and the difference of two canonical words under the result format of ADD and SUB, and the negative of one
(spec/43_addsub.md R140 to R143). -/

namespace Sys2Proof.Machine

/-- The narrowest format that holds the values of both: ADD and SUB give one IntBit more (R140). -/
def commonFmt (fa fb : Fmt) : Fmt := ⟨max fa.int fb.int, max fa.frac fb.frac⟩

section
variable {fa fb : Fmt} (ha : fa.Valid) (hb : fb.Valid)
include ha hb

theorem commonFmt_valid : (commonFmt fa fb).Valid := by
  simp only [Fmt.Valid, commonFmt] at *
  omega

theorem addFmt_valid (hint : max fa.int fb.int ≤ 63) : (addFmt fa fb).Valid := by
  simp only [Fmt.Valid, addFmt] at *
  omega

/-- The result format has one magnitude bit more than the common one, which doubles the range. -/
theorem addFmt_bits : topBit (addFmt fa fb).int = topBit (commonFmt fa fb).int + 1 ∧
    aboveTop (addFmt fa fb).int = aboveTop (commonFmt fa fb).int + 1 := by
  simp only [Fmt.Valid, addFmt, commonFmt, topBit, aboveTop] at *
  omega

/-- A sum of values in the common range is in the range of the result. -/
theorem inRange_add {sg : Sign} {x y : Int} (hx : InRange (commonFmt fa fb) sg x)
    (hy : InRange (commonFmt fa fb) sg y) : InRange (addFmt fa fb) sg (x + y) := by
  obtain ⟨htop, habove⟩ := addFmt_bits ha hb
  cases sg with
  | signed =>
    simp only [InRange, htop, pow_succ] at *
    omega
  | unsigned =>
    simp only [InRange, habove, pow_succ] at *
    omega

/-- A difference of signed values in the common range is in the range of the result. -/
theorem inRange_sub_signed {x y : Int} (hx : InRange (commonFmt fa fb) .signed x)
    (hy : InRange (commonFmt fa fb) .signed y) : InRange (addFmt fa fb) .signed (x - y) := by
  obtain ⟨htop, -⟩ := addFmt_bits ha hb
  simp only [InRange, htop, pow_succ] at *
  omega

variable {sg : Sign} {x y : Word} (hx : canonical x fa sg = true) (hy : canonical y fb sg = true)
include hx hy

/-- The operands have values in the common range, and multiples of the result's `2^-F`. -/
theorem operand_values :
    (InRange (commonFmt fa fb) sg (value x sg) ∧ 2 ^ lowBit (addFmt fa fb).frac ∣ value x sg) ∧
    (InRange (commonFmt fa fb) sg (value y sg) ∧ 2 ^ lowBit (addFmt fa fb).frac ∣ value y sg) := by
  have hcommon := commonFmt_valid ha hb
  exact ⟨value_of_canonical hcommon (canonical_of_wider ha hcommon (le_max_left _ _) (le_max_left _ _) hx),
    value_of_canonical hcommon (canonical_of_wider hb hcommon (le_max_right _ _) (le_max_right _ _) hy)⟩

variable (hint : max fa.int fb.int ≤ 63)
include hint

/-- The sum fits the result format, so `norm` leaves it as it is and its value is the sum of the values (R141). -/
theorem norm_wadd_of_canonical : norm (wadd x y) (addFmt fa fb) sg = wadd x y ∧
    value (norm (wadd x y) (addFmt fa fb) sg) sg = value x sg + value y sg := by
  have hvalid := addFmt_valid ha hb hint
  obtain ⟨⟨hxrange, hxdvd⟩, hyrange, hydvd⟩ := operand_values ha hb hx hy
  have hrange := inRange_add ha hb hxrange hyrange
  have hdvd := dvd_add hxdvd hydvd
  rw [wadd_eq_ofInt_value x y sg]
  exact ⟨norm_ofInt_of_inRange hvalid hdvd hrange, value_norm_ofInt_of_inRange hvalid hdvd hrange⟩

end

/-- Signed, the difference fits the result format (R142). -/
theorem sval_norm_wsub {fa fb : Fmt} (ha : fa.Valid) (hb : fb.Valid) (hint : max fa.int fb.int ≤ 63) {x y : Word}
    (hx : canonical x fa .signed = true) (hy : canonical y fb .signed = true) :
    sval (norm (wsub x y) (addFmt fa fb) .signed) = sval x - sval y := by
  obtain ⟨⟨hxrange, hxdvd⟩, hyrange, hydvd⟩ := operand_values ha hb hx hy
  rw [wsub_eq_ofInt_value x y .signed]
  exact value_norm_ofInt_of_inRange (addFmt_valid ha hb hint) (dvd_sub hxdvd hydvd)
    (inRange_sub_signed ha hb hxrange hyrange)

/-- Unsigned, the difference is taken modulo `2^Ir` (R142). -/
theorem uval_norm_wsub {fa fb : Fmt} (ha : fa.Valid) (hb : fb.Valid) (hint : max fa.int fb.int ≤ 63) {x y : Word}
    (hx : canonical x fa .unsigned = true) (hy : canonical y fb .unsigned = true) :
    (uval (norm (wsub x y) (addFmt fa fb) .unsigned) : Int) =
      ((uval x : Int) - uval y) % 2 ^ aboveTop (addFmt fa fb).int := by
  obtain ⟨⟨-, hxdvd⟩, -, hydvd⟩ := operand_values ha hb hx hy
  rw [wsub_eq_ofInt_value x y .unsigned]
  exact uval_norm_ofInt (addFmt_valid ha hb hint) (dvd_sub hxdvd hydvd)

section
variable {f : Fmt} (hf : f.Valid) {x : Word} (hx : canonical x f .signed = true)
include hf hx

/-- The most negative value and its negative differ by `2^I`, so `norm` gives one word for both (R143). -/
theorem norm_neg_of_most_negative (hmin : sval x = -2 ^ topBit f.int) : norm (wsub 0 x) f .signed = x := by
  obtain ⟨hlow, -, habove⟩ := bit_bounds_of_valid hf
  have hdvd : (2 : Int) ^ lowBit f.frac ∣ 2 ^ topBit f.int := pow_dvd_pow 2 hlow
  have hneg : wsub 0 x = BitVec.ofInt 128 (2 ^ topBit f.int) := by
    rw [wsub_zero_eq_ofInt_neg, hmin, neg_neg]
  have hself : x = norm (BitVec.ofInt 128 (-2 ^ topBit f.int)) f .signed := by
    rw [← hmin, ← value_signed, ofInt_value, canonical_iff.1 hx]
  have hwrap : -2 ^ topBit f.int + ((2 ^ aboveTop f.int : Nat) : Int) = 2 ^ topBit f.int := by
    rw [habove, pow_succ]
    push_cast
    ring
  apply BitVec.eq_of_toInt_eq
  calc sval (norm (wsub 0 x) f .signed)
      = Int.bmod (2 ^ topBit f.int) (2 ^ aboveTop f.int) := by rw [hneg, sval_norm_ofInt hf hdvd]
    _ = Int.bmod (-2 ^ topBit f.int) (2 ^ aboveTop f.int) := by
        rw [← Int.add_bmod_right (-2 ^ topBit f.int), hwrap]
    _ = sval (norm (BitVec.ofInt 128 (-2 ^ topBit f.int)) f .signed) := (sval_norm_ofInt hf hdvd.neg_right).symm
    _ = sval x := by rw [← hself]

/-- Every other value has its negative in the format (R143). -/
theorem sval_norm_neg (hmin : sval x ≠ -2 ^ topBit f.int) : sval (norm (wsub 0 x) f .signed) = -sval x := by
  obtain ⟨⟨hlo, hhi⟩, hdvd⟩ := value_of_canonical hf hx
  have hrange : InRange f .signed (-sval x) := by
    simp only [InRange, value_signed] at *
    omega
  rw [wsub_zero_eq_ofInt_neg]
  exact value_norm_ofInt_of_inRange hf hdvd.neg_right hrange

end

end Sys2Proof.Machine
end

section
/-! The statements on ADD, SUB and NEG (spec/43_addsub.md R141 to R143). -/

namespace Sys2Proof.Machine

theorem operandsCanonical_of_two {i : Instr} {s : State} {ra rb : Reg} {fa fb : Fmt} {sg : Sign}
    (hreads : readsUnder i = [(ra, fa, sg), (rb, fb, sg)]) (ha : canonical (readW s ra) fa sg = true)
    (hb : canonical (readW s rb) fb sg = true) : OperandsCanonical i s := by
  simp [OperandsCanonical, hreads, ha, hb]

/-- Settles O29: the one IntBit more of the result format holds the sum. -/
theorem addIsExact : Obligations.AddIsExact := by
  intro rd ra rb sg fa fb s hs
  refine ⟨encodedAs_of_encodeFields rfl rfl, faultsIllNcn_of_not_faulted hs, fun ha hb ha63 hb63 hx hy => ?_⟩
  have hint : max fa.int fb.int ≤ 63 := max_le ha63 hb63
  obtain ⟨hnorm, hvalue⟩ := norm_wadd_of_canonical ha hb hx hy hint
  refine ⟨norm (wadd (readW s ra) (readW s rb)) (addFmt fa fb) sg, ?_, rfl, hnorm,
    canonical_norm (addFmt_valid ha hb hint) _ sg, hvalue⟩
  have hi : Instr.wellFormed (.add rd ra rb sg fa fb) = true := decide_eq_true ⟨ha, hb, hint⟩
  exact completesWith_of_effect_register hs hi rfl (operandsCanonical_of_two rfl hx hy) rfl

/-- Settles O30: signed, the result format holds the difference; unsigned, `norm` reduces it modulo `2^Ir`. -/
theorem subIsExactOrWraps : Obligations.SubIsExactOrWraps := by
  intro rd ra rb sg fa fb s hs
  refine ⟨encodedAs_of_encodeFields rfl rfl, faultsIllNcn_of_not_faulted hs, fun ha hb ha63 hb63 hx hy => ?_⟩
  have hint : max fa.int fb.int ≤ 63 := max_le ha63 hb63
  refine ⟨norm (wsub (readW s ra) (readW s rb)) (addFmt fa fb) sg, ?_, rfl,
    canonical_norm (addFmt_valid ha hb hint) _ sg, ?_⟩
  · have hi : Instr.wellFormed (.sub rd ra rb sg fa fb) = true := decide_eq_true ⟨ha, hb, hint⟩
    exact completesWith_of_effect_register hs hi rfl (operandsCanonical_of_two rfl hx hy) rfl
  · cases sg with
    | signed => exact sval_norm_wsub ha hb hint hx hy
    | unsigned => exact uval_norm_wsub ha hb hint hx hy

/-- A word whose fields select no row spells no instruction (R61). -/
theorem spells_eq_none_of_not_selects {c : Command} (h : ∀ i, ¬ (Fields.ofCommand c).Selects i) :
    spells c = none := by
  refine Option.eq_none_iff_forall_ne_some.2 fun i hi => ?_
  obtain ⟨hdec, -⟩ := spells_eq_some.1 hi
  exact h i (decode_eq_ok.1 hdec).1

/-- Of the rows only NEG has opcode 10, and it asks for `S = 1`, so no row is left with `S = 0` (R58). -/
theorem not_selects_of_unsigned_neg {f : Fields} (hop : f.op = 0x0A) (hsign : f.s = 0) (i : Instr) :
    ¬ f.Selects i := by
  intro h
  cases i with
  | neg =>
    obtain ⟨-, -, hone, -⟩ := h
    exact absurd (hsign.symm.trans hone) (by decide)
  | _ =>
    obtain ⟨hop', -⟩ := h
    exact absurd (hop'.symm.trans hop) (by decide)

/-- Settles O31: the two branches are whether the negated value is in the format. -/
theorem negNegatesOrWraps : Obligations.NegNegatesOrWraps := by
  refine ⟨fun c hop hsign => spells_eq_none_of_not_selects (not_selects_of_unsigned_neg hop hsign),
    fun rd ra f s hs => ?_⟩
  refine ⟨encodedAs_of_encodeFields rfl rfl, faultsIllNcn_of_not_faulted hs, fun hf hx => ?_⟩
  refine ⟨norm (wsub 0 (readW s ra)) f .signed, ?_, rfl, canonical_norm hf _ _, ?_⟩
  · have hi : Instr.wellFormed (.neg rd ra f) = true := decide_eq_true hf
    exact completesWith_of_effect_register hs hi rfl (operandsCanonical_of_one rfl hx) rfl
  · split_ifs with hmin
    · exact norm_neg_of_most_negative hf hx hmin
    · exact sval_norm_neg hf hx hmin

end Sys2Proof.Machine
end

section
/-! Integers of a given number of bits, for either signedness at once: which of them a bit vector holds exactly, and
how many bits a stored integer and a product take (spec/44_mul.md R150, R151). -/

namespace Sys2Proof.Machine

/-- The reading of a bit vector of any width that a signedness selects: `value`, on limbs too (R7, R154). -/
def reading {n : Nat} (w : BitVec n) : Sign → Int
  | .signed => w.toInt
  | .unsigned => w.toNat

/-- The reading of a word is its value. -/
theorem value_eq_reading (w : Word) (sg : Sign) : value w sg = reading w sg := by cases sg <;> rfl

/-- The integer is a reading of `n + 1` bits: `n` magnitude bits and a sign bit, or `n + 1` bits without a sign. -/
def FitsBits (sg : Sign) (n : Nat) (k : Int) : Prop :=
  match sg with
  | .signed => -2 ^ n ≤ k ∧ k < 2 ^ n
  | .unsigned => 0 ≤ k ∧ k < 2 ^ (n + 1)

/-- A bit vector holds exactly the integers that fit its bits. -/
theorem reading_ofInt_of_fitsBits {sg : Sign} {n : Nat} {k : Int} (h : FitsBits sg n k) :
    reading (BitVec.ofInt (n + 1) k) sg = k := by
  cases sg with
  | signed =>
    obtain ⟨hlo, hhi⟩ := h
    exact BitVec.toInt_ofInt_eq_self (Nat.succ_pos n) hlo hhi
  | unsigned =>
    obtain ⟨hlo, hhi⟩ := h
    obtain ⟨m, rfl⟩ := Int.eq_ofNat_of_zero_le hlo
    have hlt : m < 2 ^ (n + 1) := mod_cast hhi
    rw [reading, BitVec.ofInt_natCast, BitVec.toNat_ofNat, Nat.mod_eq_of_lt hlt]

theorem FitsBits.mono {sg : Sign} {m n : Nat} (hmn : m ≤ n) {k : Int} (h : FitsBits sg m k) : FitsBits sg n k := by
  cases sg with
  | signed =>
    obtain ⟨hlo, hhi⟩ := h
    have hpow : (2 : Int) ^ m ≤ 2 ^ n := pow_le_pow_right₀ (by norm_num) hmn
    exact ⟨by linarith, by linarith⟩
  | unsigned =>
    obtain ⟨hlo, hhi⟩ := h
    exact ⟨hlo, hhi.trans_le (pow_le_pow_right₀ (by norm_num) (by omega))⟩

/-- A product takes as many bits as its factors together (R150). -/
theorem FitsBits.mul {sg : Sign} {m n : Nat} {x y : Int} (hx : FitsBits sg m x) (hy : FitsBits sg n y) :
    FitsBits sg (m + n + 1) (x * y) := by
  cases sg with
  | signed =>
    obtain ⟨hlo, hhi⟩ := mul_range hx hy
    have hpos : (0 : Int) < 2 ^ (m + n) := by positivity
    have hpow : (2 : Int) ^ (m + n + 1) = 2 ^ (m + n) * 2 := pow_succ _ _
    exact ⟨by linarith, by linarith⟩
  | unsigned =>
    obtain ⟨hx0, hx1⟩ := hx
    obtain ⟨hy0, hy1⟩ := hy
    have hpow : (2 : Int) ^ (m + n + 1 + 1) = 2 ^ (m + 1) * 2 ^ (n + 1) := by ring
    exact ⟨mul_nonneg hx0 hy0, hpow ▸ mul_lt_mul'' hx1 hy1 hx0 hy0⟩

/-- Moved up by `l` bits, an integer takes `l` bits more. -/
theorem FitsBits.mul_two_pow {sg : Sign} {n : Nat} {k : Int} (h : FitsBits sg n k) (l : Nat) :
    FitsBits sg (n + l) (k * 2 ^ l) := by
  have hpos : (0 : Int) < 2 ^ l := by positivity
  cases sg with
  | signed =>
    obtain ⟨hlo, hhi⟩ := h
    simp only [FitsBits, pow_add]
    exact ⟨by nlinarith, mul_lt_mul_of_pos_right hhi hpos⟩
  | unsigned =>
    obtain ⟨hlo, hhi⟩ := h
    have hpow : (2 : Int) ^ (n + l + 1) = 2 ^ (n + 1) * 2 ^ l := by ring
    exact ⟨mul_nonneg hlo hpos.le, hpow ▸ mul_lt_mul_of_pos_right hhi hpos⟩

/-- The declared bits of a format, `I + F`, are its magnitude bits and one more. -/
theorem magnitudeBits_add_one {f : Fmt} (hf : f.Valid) : (magnitudeBits f : Int) + 1 = f.int + f.frac := by
  obtain ⟨-, hsum, hfrac⟩ := hf
  simp only [magnitudeBits, topBit, lowBit]
  omega

section
variable {f : Fmt} (hf : f.Valid) {x : Word} {sg : Sign} (hx : canonical x f sg = true)
include hf hx

/-- The stored integer of a canonical word fits the declared bits, `I + F` of them (R151). -/
theorem fitsBits_value_stored : FitsBits sg (magnitudeBits f) (value (stored x f.frac sg) sg) := by
  cases sg with
  | signed => exact sval_stored_range hf hx
  | unsigned =>
    have hlt := uval_stored_lt hf hx
    exact ⟨Int.natCast_nonneg _, by rw [value_unsigned]; exact_mod_cast hlt⟩

/-- The shift that gives the stored integer of a canonical word drops nothing of its value (R102, R103). -/
theorem value_stored_mul_two_pow : value (stored x f.frac sg) sg * 2 ^ lowBit f.frac = value x sg := by
  have hlow := lowBit_lt f.frac
  obtain ⟨-, hdvd⟩ := value_of_canonical hf hx
  have hfloor : value (stored x f.frac sg) sg = value x sg / 2 ^ lowBit f.frac := by
    cases sg with
    | signed => exact sval_shrS x hlow
    | unsigned =>
      rw [value_unsigned, value_unsigned, stored, shr, uval_shrU x hlow]
      push_cast
      rfl
  rw [hfloor, Int.ediv_mul_cancel hdvd]

end

end Sys2Proof.Machine
end

section
/-! The product of the stored integers as the word multiply and as each path of the multiplier computes it: all wrap
the one exact product, and where it fits they hold it (spec/44_mul.md R151 to R156). -/

namespace Sys2Proof.Machine

theorem wmul_eq_ofInt_value (a b : Word) (sg : Sign) : wmul a b = BitVec.ofInt 128 (value a sg * value b sg) := by
  rw [BitVec.ofInt_mul, ofInt_value, ofInt_value, wmul]

/-- The word multiply is exact where the product fits the word (R151). -/
theorem value_wmul_of_fitsBits {a b : Word} {sg : Sign} (h : FitsBits sg 127 (value a sg * value b sg)) :
    value (wmul a b) sg = value a sg * value b sg := by
  rw [wmul_eq_ofInt_value a b sg, value_eq_reading, reading_ofInt_of_fitsBits h]

/-- The last shift of MUL loses nothing where the shifted product fits the word (R151). -/
theorem value_shl_wmul_of_fitsBits {a b : Word} {sg : Sign} {n : Nat} (hn : n < 128)
    (h : FitsBits sg 127 (value a sg * value b sg * 2 ^ n)) :
    value (shl (wmul a b) n) sg = value a sg * value b sg * 2 ^ n := by
  cases sg with
  | signed =>
    obtain ⟨hlo, hhi⟩ := h
    exact sval_shl_wmul hn hlo hhi
  | unsigned =>
    obtain ⟨-, hhi⟩ := h
    simp only [value_unsigned] at hhi ⊢
    exact_mod_cast uval_shl_wmul hn (mod_cast hhi)

theorem lo_ofInt (k : Int) : lo (BitVec.ofInt 128 k) = BitVec.ofInt 64 k := by
  apply BitVec.eq_of_toNat_eq
  rw [toNat_lo, uval, BitVec.toNat_ofInt, BitVec.toNat_ofInt]
  omega

/-- The low limb of a word is either reading of the word, wrapped to 64 bits. -/
theorem lo_eq_ofInt_value (w : Word) (sg : Sign) : lo w = BitVec.ofInt 64 (value w sg) := by
  rw [← lo_ofInt, ofInt_value]

/-- A word whose value fits one limb has the reading of its low limb as its value (R153, R154). -/
theorem reading_lo_of_fitsBits {w : Word} {sg : Sign} (h : FitsBits sg 63 (value w sg)) :
    reading (lo w) sg = value w sg := by
  rw [lo_eq_ofInt_value w sg, reading_ofInt_of_fitsBits h]

/-- NARROW extends the 64-bit product by its own reading (R153). -/
theorem pathProduct_narrow (kx ky : Word) (sg : Sign) :
    pathProduct kx ky sg .narrow = BitVec.ofInt 128 (reading (limbMul (lo kx) (lo ky)) sg) := by
  cases sg with
  | signed => rfl
  | unsigned => rw [pathProduct, reading, BitVec.ofInt_natCast, BitVec.ofNat_toNat, BitVec.zeroExtend]

/-- WIDEN multiplies the readings of the two low limbs (R154). -/
theorem pathProduct_widen (kx ky : Word) (sg : Sign) :
    pathProduct kx ky sg .widen = BitVec.ofInt 128 (reading (lo kx) sg * reading (lo ky) sg) := by
  cases sg with
  | signed => rfl
  | unsigned =>
    rw [pathProduct, wideMul, reading, reading, ← Nat.cast_mul, BitVec.ofInt_natCast]

section
variable {kx ky : Word} {sg : Sign}

/-- NARROW is the word multiply where the product fits one limb: the product of the low limbs is the exact one, taken
modulo `2^64` (R153, R156). -/
theorem pathProduct_narrow_eq_wmul (h : FitsBits sg 63 (value kx sg * value ky sg)) :
    pathProduct kx ky sg .narrow = wmul kx ky := by
  have hlimb : limbMul (lo kx) (lo ky) = BitVec.ofInt 64 (value kx sg * value ky sg) := by
    rw [BitVec.ofInt_mul, ← lo_eq_ofInt_value, ← lo_eq_ofInt_value, limbMul]
  rw [pathProduct_narrow, hlimb, reading_ofInt_of_fitsBits h, ← wmul_eq_ofInt_value]

/-- WIDEN is the word multiply where each factor fits one limb (R154, R156). -/
theorem pathProduct_widen_eq_wmul (hx : FitsBits sg 63 (value kx sg)) (hy : FitsBits sg 63 (value ky sg)) :
    pathProduct kx ky sg .widen = wmul kx ky := by
  rw [pathProduct_widen, reading_lo_of_fitsBits hx, reading_lo_of_fitsBits hy, ← wmul_eq_ofInt_value]

end

/-- NARROW is selected only where the declared widths together fit one limb (R152). -/
theorem width_of_mulPath_narrow {fa fb : Fmt} (h : mulPath fa fb = .narrow) :
    fa.int + fa.frac + (fb.int + fb.frac) ≤ 64 := by
  by_contra hwide
  simp only [mulPath, if_neg hwide] at h
  split_ifs at h

/-- WIDEN is selected only where each declared width fits one limb (R152). -/
theorem width_of_mulPath_widen {fa fb : Fmt} (h : mulPath fa fb = .widen) :
    fa.int + fa.frac ≤ 64 ∧ fb.int + fb.frac ≤ 64 := by
  simp only [mulPath] at h
  split_ifs at h with hnarrow hwiden
  exact hwiden

end Sys2Proof.Machine
end

section
/-! The statements on MUL and on the multiplier's paths (spec/44_mul.md R150 to R156). -/

namespace Sys2Proof.Machine

theorem mulFmt_valid {fa fb : Fmt} (ha : fa.Valid) (hb : fb.Valid) (hint : fa.int + fb.int ≤ 64)
    (hfrac : fa.frac + fb.frac ≤ 63) : (mulFmt fa fb).Valid := by
  simp only [Fmt.Valid, mulFmt] at *
  omega

section
variable {fa fb : Fmt} (ha : fa.Valid) (hb : fb.Valid) {sg : Sign} {x y : Word}
  (hx : canonical x fa sg = true) (hy : canonical y fb sg = true)
include ha hb hx hy

/-- The product of the stored integers takes no more bits than the two formats declare together (R151). -/
theorem fitsBits_stored_product :
    FitsBits sg (magnitudeBits fa + magnitudeBits fb + 1)
      (value (stored x fa.frac sg) sg * value (stored y fb.frac sg) sg) :=
  (fitsBits_value_stored ha hx).mul (fitsBits_value_stored hb hy)

/-- Where the combined width fits 64 bits so does the product (R153). -/
theorem narrow_eq_wmul_of_width (hw : fa.int + fa.frac + (fb.int + fb.frac) ≤ 64) :
    pathProduct (stored x fa.frac sg) (stored y fb.frac sg) sg .narrow =
      wmul (stored x fa.frac sg) (stored y fb.frac sg) := by
  have hwa := magnitudeBits_add_one ha
  have hwb := magnitudeBits_add_one hb
  exact pathProduct_narrow_eq_wmul ((fitsBits_stored_product ha hb hx hy).mono (by omega))

/-- Where each width fits 64 bits so does each stored integer (R154). -/
theorem widen_eq_wmul_of_width (hwx : fa.int + fa.frac ≤ 64) (hwy : fb.int + fb.frac ≤ 64) :
    pathProduct (stored x fa.frac sg) (stored y fb.frac sg) sg .widen =
      wmul (stored x fa.frac sg) (stored y fb.frac sg) := by
  have hwa := magnitudeBits_add_one ha
  have hwb := magnitudeBits_add_one hb
  exact pathProduct_widen_eq_wmul ((fitsBits_value_stored ha hx).mono (by omega))
    ((fitsBits_value_stored hb hy).mono (by omega))

variable (hint : fa.int + fb.int ≤ 64) (hfrac : fa.frac + fb.frac ≤ 63)
include hint hfrac

/-- MUL's word has the product of the two values as its value, in units of `2^-64` (R151). -/
theorem value_productWord :
    value (productWord fa fb sg x y) sg * 2 ^ 64 = value x sg * value y sg := by
  have hab := mulFmt_valid ha hb hint hfrac
  obtain ⟨-, htop, -⟩ := bit_bounds_of_valid hab
  have hfits := (fitsBits_stored_product ha hb hx hy).mul_two_pow (lowBit (mulFmt fa fb).frac)
  rw [← topBit_mulFmt ha hb hab] at hfits
  have hshifts : lowBit (mulFmt fa fb).frac + 64 = lowBit fa.frac + lowBit fb.frac := by
    simp only [lowBit, mulFmt]
    omega
  rw [productWord, value_shl_wmul_of_fitsBits (lowBit_lt _) (hfits.mono (by omega)), mul_assoc, ← pow_add, hshifts,
    pow_add, mul_mul_mul_comm, value_stored_mul_two_pow ha hx, value_stored_mul_two_pow hb hy]

end

/-- Settles O32: the result format has room for the product of the stored integers, so no shift loses a bit. -/
theorem mulIsExact : Obligations.MulIsExact := by
  intro rd ra rb sg fa fb s hs
  refine ⟨encodedAs_of_encodeFields rfl rfl, faultsIllNcn_of_not_faulted hs, fun ha hb hint hfrac hx hy => ?_⟩
  refine ⟨productWord fa fb sg (readW s ra) (readW s rb), ?_, rfl,
    canonical_productWord ha hb (mulFmt_valid ha hb hint hfrac) hx hy, value_productWord ha hb hx hy hint hfrac⟩
  have hi : Instr.wellFormed (.mul rd ra rb sg fa fb) = true := decide_eq_true ⟨ha, hb, hint, hfrac⟩
  exact completesWith_of_effect_register hs hi rfl (operandsCanonical_of_two rfl hx hy) rfl

/-- Settles O38: each path wraps the one exact product, and the widths that select it make its limbs hold it. -/
theorem mulPathsAgree : Obligations.MulPathsAgree := by
  intro fa fb sg x y ha hb hint hfrac hx hy kx ky
  have hwa := magnitudeBits_add_one ha
  have hwb := magnitudeBits_add_one hb
  refine ⟨?_, fun hpath => ?_, rfl, ?_⟩
  · cases hpath : mulPath fa fb with
    | narrow => exact narrow_eq_wmul_of_width ha hb hx hy (width_of_mulPath_narrow hpath)
    | widen =>
      obtain ⟨hwx, hwy⟩ := width_of_mulPath_widen hpath
      exact widen_eq_wmul_of_width ha hb hx hy hwx hwy
    | full => rfl
  · have hw := width_of_mulPath_narrow hpath
    exact widen_eq_wmul_of_width ha hb hx hy (by omega) (by omega)
  · exact value_wmul_of_fitsBits ((fitsBits_stored_product ha hb hx hy).mono (by omega))

end Sys2Proof.Machine
end

section
/-! The word divide in the integers: the quotient of the two readings, how many bits it takes, and what `norm` makes of
the one quotient that takes a bit more than its dividend (spec/40_wideword.md R90; 45_div.md R161 to R163). -/

namespace Sys2Proof.Machine

/-- A word is zero exactly when either of its readings is. -/
theorem value_eq_zero_iff {w : Word} {sg : Sign} : value w sg = 0 ↔ w = 0 := by
  constructor
  · intro h
    rw [← ofInt_value w sg, h]
    rfl
  · rintro rfl
    cases sg <;> rfl

/-- A left shift of a wrapped integer is the wrapped integer moved up (R81). -/
theorem shl_ofInt (k : Int) {n : Nat} (hn : n < 128) :
    shl (BitVec.ofInt 128 k) n = BitVec.ofInt 128 (k * 2 ^ n) := by
  have huval : (uval (shl (BitVec.ofInt 128 k) n) : Int) = uval (BitVec.ofInt 128 (k * 2 ^ n)) := by
    rw [uval_shl _ hn]
    push_cast
    rw [uval_ofInt, uval_ofInt]
    exact (Int.mod_modEq k _).mul_right _
  exact BitVec.eq_of_toNat_eq (mod_cast huval)

/-- The word divide wraps the quotient of the two readings, truncated toward zero (R90). -/
theorem wdiv_eq_ofInt_value (a : Word) {b : Word} (hb : b ≠ 0) (sg : Sign) :
    wdiv a b sg = BitVec.ofInt 128 ((value a sg).tdiv (value b sg)) := by
  cases sg with
  | signed => exact wdiv_signed_of_ne_zero a hb
  | unsigned =>
    rw [wdiv_unsigned_of_ne_zero a hb, value_unsigned, value_unsigned, ← Int.ofNat_tdiv, BitVec.ofInt_natCast]

/-- A quotient takes no more bits than its dividend, but for the most negative integer divided by -1
(R163 (d), (e)). -/
theorem FitsBits.tdiv {sg : Sign} {m n : Nat} {x y : Int} (hx : FitsBits sg m x) (hy : FitsBits sg n y)
    (hover : ¬ (sg = .signed ∧ x = -2 ^ m ∧ y = -1)) : FitsBits sg m (x.tdiv y) := by
  cases sg with
  | signed =>
    obtain ⟨hlo, hhi⟩ := hx
    have hle : |x.tdiv y| ≤ |x| := by
      rw [Int.abs_eq_natAbs, Int.abs_eq_natAbs, Int.natAbs_tdiv]
      exact mod_cast Nat.div_le_self _ _
    have habs : |x| ≤ 2 ^ m := abs_le.2 ⟨hlo, hhi.le⟩
    refine ⟨neg_le_of_abs_le (hle.trans habs), ?_⟩
    rcases le_or_gt 0 x with hnonneg | hneg
    · exact (Int.tdiv_le_self y hnonneg).trans_lt hhi
    · by_cases hy1 : y = -1
      · have hmin : x ≠ -2 ^ m := fun h => hover ⟨rfl, h, hy1⟩
        rw [hy1, Int.tdiv_neg, Int.tdiv_one]
        omega
      · have hpos : 0 < -x := by omega
        calc x.tdiv y = -x / -y := by rw [← Int.tdiv_eq_ediv_of_nonneg hpos.le, Int.neg_tdiv_neg]
          _ < -x := Int.ediv_lt_self_of_pos_of_ne_one hpos (by omega)
          _ ≤ 2 ^ m := by omega
  | unsigned =>
    obtain ⟨hx0, hx1⟩ := hx
    obtain ⟨hy0, -⟩ := hy
    exact ⟨Int.tdiv_nonneg hx0 hy0, (Int.tdiv_le_self y hx0).trans_lt hx1⟩

section
variable {f : Fmt} (hf : f.Valid)
include hf

/-- A stored integer that fits the declared bits gives a value in the range of the format (R102, R103). -/
theorem inRange_of_fitsBits {sg : Sign} {k : Int} (hk : FitsBits sg (magnitudeBits f) k) :
    InRange f sg (k * 2 ^ lowBit f.frac) := by
  obtain ⟨-, -, habove⟩ := bit_bounds_of_valid hf
  have hvalue := hk.mul_two_pow (lowBit f.frac)
  rw [← topBit_eq_magnitudeBits_add hf] at hvalue
  cases sg with
  | signed => exact hvalue
  | unsigned => rwa [InRange, habove]

/-- The first value above a signed format wraps to the most negative one (R106). -/
theorem sval_norm_ofInt_two_pow_topBit :
    sval (norm (BitVec.ofInt 128 (2 ^ topBit f.int)) f .signed) = -2 ^ topBit f.int := by
  obtain ⟨hlow, -, -⟩ := bit_bounds_of_valid hf
  have hdvd : (2 : Int) ^ lowBit f.frac ∣ -2 ^ topBit f.int := (pow_dvd_pow 2 hlow).neg_right
  have hpos : (0 : Int) < 2 ^ topBit f.int := by positivity
  have hmin : sval (norm (BitVec.ofInt 128 (-2 ^ topBit f.int)) f .signed) = -2 ^ topBit f.int :=
    value_norm_ofInt_of_inRange hf hdvd (sg := .signed) ⟨le_rfl, by omega⟩
  have hwrap := norm_neg_of_most_negative hf (canonical_norm hf _ _) hmin
  rw [wsub_zero_eq_ofInt_neg, hmin, neg_neg] at hwrap
  rw [hwrap, hmin]

variable {x : Word} {sg : Sign} (hx : canonical x f sg = true)
include hx

/-- A canonical word is zero exactly when its stored integer is (R161). -/
theorem stored_eq_zero_iff : stored x f.frac sg = 0 ↔ x = 0 := by
  rw [← value_eq_zero_iff (sg := sg), ← value_eq_zero_iff (w := x) (sg := sg), ← value_stored_mul_two_pow hf hx]
  simp

/-- The stored integer of a canonical word counts the units of `2^-F` in its value (R102). -/
theorem value_eq_mul_two_pow_iff {k : Int} :
    value x sg = k * 2 ^ lowBit f.frac ↔ value (stored x f.frac sg) sg = k := by
  rw [← value_stored_mul_two_pow hf hx]
  exact mul_left_inj' (by positivity)

end

end Sys2Proof.Machine
end

section
/-! The statement on DIV (spec/45_div.md R160 to R163): the result format has as many declared bits as the dividend, so
it holds every quotient but the one of R163 (d). -/

namespace Sys2Proof.Machine

/-- The word DIV writes for two operand words, by R161's formula. -/
def quotientWord (fa fb : Fmt) (sg : Sign) (x y : Word) : Word :=
  norm (shl (wdiv (stored x fa.frac sg) (stored y fb.frac sg) sg) (lowBit (divFmt fa fb).frac)) (divFmt fa fb) sg

section quotientWord
variable {fa fb : Fmt} {sg : Sign} {x y : Word}

/-- DIV's word is the quotient of the stored integers, moved up and normalised (R161). -/
theorem quotientWord_eq_norm_ofInt (hb : fb.Valid) (hy : canonical y fb sg = true) (hne : y ≠ 0) :
    quotientWord fa fb sg x y = norm (BitVec.ofInt 128
      ((value (stored x fa.frac sg) sg).tdiv (value (stored y fb.frac sg) sg) * 2 ^ lowBit (divFmt fa fb).frac))
      (divFmt fa fb) sg := by
  have hdivisor : stored y fb.frac sg ≠ 0 := mt (stored_eq_zero_iff hb hy).1 hne
  rw [quotientWord, wdiv_eq_ofInt_value _ hdivisor, shl_ofInt _ (lowBit_lt _)]

variable (ha : fa.Valid) (hb : fb.Valid)
include ha hb

theorem divFmt_valid (hfrac : fb.frac ≤ fa.frac) (hint : fa.int + fb.frac ≤ 64) : (divFmt fa fb).Valid := by
  simp only [Fmt.Valid, divFmt] at *
  omega

/-- The result format of DIV has as many declared bits as the dividend's (R160). -/
theorem magnitudeBits_divFmt (hfrac : fb.frac ≤ fa.frac) (hint : fa.int + fb.frac ≤ 64) :
    magnitudeBits (divFmt fa fb) = magnitudeBits fa := by
  have hdividend := magnitudeBits_add_one ha
  have hresult := magnitudeBits_add_one (divFmt_valid ha hb hfrac hint)
  simp only [divFmt] at *
  omega

variable (hx : canonical x fa sg = true) (hy : canonical y fb sg = true)
include hx hy

/-- The operands of R163 (d) are those whose stored integers are the most negative one and -1. -/
theorem overflow_iff_stored :
    (sg = .signed ∧ value x sg = -2 ^ topBit fa.int ∧ value y sg = -2 ^ lowBit fb.frac) ↔
      (sg = .signed ∧ value (stored x fa.frac sg) sg = -2 ^ magnitudeBits fa ∧
        value (stored y fb.frac sg) sg = -1) := by
  rw [← value_eq_mul_two_pow_iff ha hx, ← value_eq_mul_two_pow_iff hb hy, topBit_eq_magnitudeBits_add ha, pow_add,
    neg_mul, neg_one_mul]

variable (hfrac : fb.frac ≤ fa.frac)
include hfrac

/-- The quotient of the values, counted in units of the result format, is that of the stored integers (R161). -/
theorem tdiv_value_eq_tdiv_stored :
    (value x sg * 2 ^ (divFmt fa fb).frac).tdiv (value y sg) =
      (value (stored x fa.frac sg) sg).tdiv (value (stored y fb.frac sg) sg) := by
  have hpos : (0 : Int) < 2 ^ lowBit fb.frac := by positivity
  have hshifts : lowBit fa.frac + (divFmt fa fb).frac = lowBit fb.frac := by
    obtain ⟨-, -, hfrac63⟩ := ha
    simp only [lowBit, divFmt]
    omega
  rw [← value_stored_mul_two_pow ha hx, ← value_stored_mul_two_pow hb hy, mul_assoc, ← pow_add, hshifts,
    Int.mul_tdiv_mul_of_pos_left _ _ hpos]

variable (hint : fa.int + fb.frac ≤ 64) (hne : y ≠ 0)
include hint hne

/-- The quotient one above the result format's range wraps to its most negative value (R163 (d)). -/
theorem value_quotientWord_of_overflow
    (hover : sg = .signed ∧ value x sg = -2 ^ topBit fa.int ∧ value y sg = -2 ^ lowBit fb.frac) :
    value (quotientWord fa fb sg x y) sg = -2 ^ topBit (divFmt fa fb).int := by
  have hvalid := divFmt_valid ha hb hfrac hint
  obtain ⟨rfl, hkx, hky⟩ := (overflow_iff_stored ha hb hx hy).1 hover
  rw [quotientWord_eq_norm_ofInt hb hy hne, hkx, hky, Int.neg_tdiv_neg, Int.tdiv_one,
    ← magnitudeBits_divFmt ha hb hfrac hint, ← pow_add, ← topBit_eq_magnitudeBits_add hvalid]
  exact sval_norm_ofInt_two_pow_topBit hvalid

/-- Every other quotient is in the result format, so DIV's word has it as its value (R161). -/
theorem value_quotientWord
    (hover : ¬ (sg = .signed ∧ value x sg = -2 ^ topBit fa.int ∧ value y sg = -2 ^ lowBit fb.frac)) :
    value (quotientWord fa fb sg x y) sg =
      (value x sg * 2 ^ (divFmt fa fb).frac).tdiv (value y sg) * 2 ^ lowBit (divFmt fa fb).frac := by
  have hvalid := divFmt_valid ha hb hfrac hint
  have hfits := (fitsBits_value_stored ha hx).tdiv (fitsBits_value_stored hb hy)
    (mt (overflow_iff_stored ha hb hx hy).2 hover)
  rw [← magnitudeBits_divFmt ha hb hfrac hint] at hfits
  rw [tdiv_value_eq_tdiv_stored ha hb hx hy hfrac, quotientWord_eq_norm_ofInt hb hy hne]
  exact value_norm_ofInt_of_inRange hvalid (Int.dvd_mul_left _ _) (inRange_of_fitsBits hvalid hfits)

end quotientWord

/-- On canonical operands only the divisor decides between DIV's write and `DBZ` (R193, R194). -/
theorem verdict_div {ρ : Reg → Word} {rd ra rb : Reg} {sg : Sign} {fa fb : Fmt}
    (hi : Instr.wellFormed (.div rd ra rb sg fa fb) = true) (hx : canonical (ρ ra) fa sg = true)
    (hy : canonical (ρ rb) fb sg = true) :
    verdict ρ (.div rd ra rb sg fa fb) = if ρ rb ≠ 0 then .none else .dbz := by
  simp [verdict, readsUnder, divisor, hi, hx, hy]

/-- Settles O33: the quotient of the stored integers is the truncated one, and the result format has room for it
unless the most negative dividend is divided by the stored integer -1. -/
theorem divTruncatesTowardZero : Obligations.DivTruncatesTowardZero := by
  intro rd ra rb sg fa fb s hs
  refine ⟨encodedAs_of_encodeFields rfl rfl, faultsIllNcn_of_not_faulted hs, fun ha hb hfrac hint hx hy => ?_⟩
  have hi : Instr.wellFormed (.div rd ra rb sg fa fb) = true := decide_eq_true ⟨ha, hb, hfrac, hint⟩
  have hverdict := verdict_div hi hx hy
  refine ⟨(stored_eq_zero_iff hb hy).symm, fun hzero => ?_, fun hne => ?_⟩
  · rw [if_neg (not_not.2 hzero)] at hverdict
    rw [exec_of_verdict_ne_none hs (by simp [hverdict]), hverdict]
  · rw [if_pos hne] at hverdict
    refine ⟨quotientWord fa fb sg (readW s ra) (readW s rb),
      ⟨_, exec_of_verdict_none hs hverdict, onlyRegister_writeW s rd _, readW_writeW_same s rd _⟩, rfl,
      canonical_norm (divFmt_valid ha hb hfrac hint) _ sg, ?_⟩
    split_ifs with hover
    · exact value_quotientWord_of_overflow ha hb hx hy hfrac hint hne hover
    · exact value_quotientWord ha hb hx hy hfrac hint hne hover

end Sys2Proof.Machine
end

section
/-! What CMP writes, and the order it records held against the order of the signed readings (spec/46_compare.md R170
to R172; 10_state.md R25). -/

namespace Sys2Proof.Machine

section flags
variable (s : State) (x y : Word)

theorem onlyFlags_writeCompare : OnlyFlags s (writeCompare s x y) :=
  ⟨fun _ => rfl, ⟨rfl, rfl⟩, rfl, rfl, rfl, rfl⟩

theorem readRelation_writeCompare_eq_iff : readRelation (writeCompare s x y) .eq = true ↔ x = y := beq_iff_eq

theorem readRelation_writeCompare_ne_iff : readRelation (writeCompare s x y) .ne = true ↔ x ≠ y := bne_iff_ne

theorem readRelation_writeCompare_lt_iff : readRelation (writeCompare s x y) .lt = true ↔ uval x < uval y := wlt_iff

theorem readRelation_writeCompare_le_iff : readRelation (writeCompare s x y) .le = true ↔ uval x ≤ uval y := wle_iff

/-- `>` is read as the complement of what `<=` is read as (R172). -/
theorem readRelation_writeCompare_gt_iff : readRelation (writeCompare s x y) .gt = true ↔ uval y < uval x := by
  have hcompl : readRelation (writeCompare s x y) .gt = !readRelation (writeCompare s x y) .le := rfl
  rw [hcompl, Bool.not_eq_true', ← Bool.not_eq_true, readRelation_writeCompare_le_iff, not_le]

theorem readRelation_writeCompare_ge_iff : readRelation (writeCompare s x y) .ge = true ↔ uval y ≤ uval x := wge_iff

end flags

/-- A CMP of a valid format on canonical operands compares the two words (R171). -/
theorem exec_cmp_of_canonical {ra rb : Reg} {sg : Sign} {f : Fmt} {s : State} (hs : s.cause = .none) (hf : f.Valid)
    (hx : canonical (readW s ra) f sg = true) (hy : canonical (readW s rb) f sg = true) :
    exec (.cmp ra rb sg f) s = .next (writeCompare s (readW s ra) (readW s rb)) :=
  exec_of_operandsCanonical hs (decide_eq_true hf) rfl (operandsCanonical_of_two rfl hx hy)

section order
variable {x y : Word}

/-- A word is not below itself, so the two flags are never set together (R171). -/
theorem wlt_eq_false_of_eq (h : x = y) : wlt x y = false := by
  rw [← Bool.not_eq_true, wlt_iff, h]
  exact lt_irrefl _

/-- On words of one sign the signed readings differ from the unsigned ones by one constant (R170 (c)). -/
theorem wlt_iff_sval_lt_of_sign_eq (h : x.getLsbD 127 = y.getLsbD 127) : wlt x y = true ↔ sval x < sval y := by
  rw [wlt_iff, sval_eq_uval_sub x, sval_eq_uval_sub y, h, sub_lt_sub_iff_right, Nat.cast_lt]

/-- A word with bit 127 set is above every word with it clear in the unsigned order, and below it in the signed one. -/
theorem order_of_nonneg_of_neg (hx : x.getLsbD 127 = false) (hy : y.getLsbD 127 = true) :
    uval x < uval y ∧ sval y < sval x := by
  have hneg := getLsbD_sign_eq_true_iff.1 hy
  have hnonneg := getLsbD_sign_eq_false_iff.1 hx
  have hxread := sval_eq_uval_sub x
  have hyread := sval_eq_uval_sub y
  have hxhigh := (sval_range x).2
  have hylow := (sval_range y).1
  rw [hx, if_neg Bool.false_ne_true] at hxread
  rw [hy, if_pos rfl] at hyread
  omega

/-- On words of opposite sign CMP's order is the reverse of the numeric one (R170 (c)). -/
theorem wlt_iff_sval_gt_of_sign_ne (h : x.getLsbD 127 ≠ y.getLsbD 127) : wlt x y = true ↔ sval y < sval x := by
  have hsign : x.getLsbD 127 = !y.getLsbD 127 := Bool.eq_not_of_ne h
  rw [wlt_iff]
  cases hy : y.getLsbD 127 with
  | true =>
    obtain ⟨hunsigned, hsigned⟩ := order_of_nonneg_of_neg (by rw [hsign, hy, Bool.not_true]) hy
    exact iff_of_true hunsigned hsigned
  | false =>
    obtain ⟨hunsigned, hsigned⟩ := order_of_nonneg_of_neg hy (by rw [hsign, hy, Bool.not_false])
    exact iff_of_false hunsigned.not_gt hsigned.not_gt

end order

end Sys2Proof.Machine
end

section
/-! The statements on CMP (spec/46_compare.md R170 to R172). -/

namespace Sys2Proof.Machine

/-- Settles O34: CMP writes `wlt` of the two words, which is the limb order and the unsigned order (R86). -/
theorem cmpComparesUnsigned : Obligations.CmpComparesUnsigned := by
  intro ra rb sg f s hs
  refine ⟨encodedAs_of_encodeFields rfl rfl, faultsIllNcn_of_not_faulted hs, fun hf hx hy => ?_⟩
  refine ⟨_, exec_cmp_of_canonical hs hf hx hy, onlyFlags_writeCompare s _ _, rfl, rfl, (wltLimbs_eq_wlt _ _).symm,
    wlt_iff, fun heq => ?_, fun hreg => ?_⟩
  · exact wlt_eq_false_of_eq (eq_of_beq heq)
  · exact beq_iff_eq.2 (congrArg (readW s) hreg)

/-- Settles O35: the command answers the state with the flags of the two words, and each relation is read from it. -/
theorem sixRelationsFromTwoFlags : Obligations.SixRelationsFromTwoFlags := by
  intro ra rb sg f s t hs hf hx hy hexec
  rw [exec_cmp_of_canonical hs hf hx hy] at hexec
  obtain rfl := Host.Outcome.next.inj hexec
  exact ⟨readRelation_writeCompare_eq_iff .., readRelation_writeCompare_ne_iff ..,
    readRelation_writeCompare_lt_iff .., readRelation_writeCompare_le_iff ..,
    readRelation_writeCompare_gt_iff .., readRelation_writeCompare_ge_iff ..⟩

/-- Settles O36: CMP's order is the unsigned one; the signed order is the same on words of one sign, its
reverse on opposite signs. -/
theorem cmpOrderAgainstNumericOrder : Obligations.CmpOrderAgainstNumericOrder := by
  intro ra rb sg f s hs hf hx hy
  refine ⟨_, exec_cmp_of_canonical hs hf hx hy, ?_⟩
  cases sg with
  | unsigned =>
    rw [if_neg (by simp), value_unsigned, value_unsigned, Nat.cast_lt]
    exact wlt_iff
  | signed =>
    split_ifs with hopposite
    · obtain ⟨-, hne⟩ := hopposite
      exact wlt_iff_sval_gt_of_sign_ne hne
    · exact wlt_iff_sval_lt_of_sign_eq (not_not.1 fun hne => hopposite ⟨rfl, hne⟩)

end Sys2Proof.Machine
end

section
/-! The faults: when a verdict is which fault, what the command port can do with a word, and what a faulted ALU
does with the host's actions (spec/60_exceptions.md R191 to R196; 70_reset_and_hazards.md R205, R210). -/

namespace Sys2Proof.Machine

section verdict
variable {ρ : Reg → Word} {i : Instr}

theorem verdict_eq_ill_iff : verdict ρ i = .ill ↔ i.wellFormed = false := by
  unfold verdict
  split_ifs with hill <;> simp [hill]

/-- `NCN` comes after `ILL` only (R194). -/
theorem verdict_eq_ncn_iff : verdict ρ i = .ncn ↔
    i.wellFormed = true ∧ ¬ ∀ p ∈ readsUnder i, canonical (ρ p.1) p.2.1 p.2.2 = true := by
  rw [← Bool.not_eq_false]
  unfold verdict
  split_ifs <;> tauto

/-- `DBZ` comes last (R194). -/
theorem verdict_eq_dbz_iff : verdict ρ i = .dbz ↔
    i.wellFormed = true ∧ (∀ p ∈ readsUnder i, canonical (ρ p.1) p.2.1 p.2.2 = true) ∧
      ¬ ∀ r ∈ divisor i, ρ r ≠ 0 := by
  rw [← Bool.not_eq_false]
  unfold verdict
  split_ifs <;> tauto

theorem verdict_eq_none_iff : verdict ρ i = .none ↔
    i.wellFormed = true ∧ (∀ p ∈ readsUnder i, canonical (ρ p.1) p.2.1 p.2.2 = true) ∧
      ∀ r ∈ divisor i, ρ r ≠ 0 := by
  rw [← Bool.not_eq_false]
  unfold verdict
  split_ifs <;> tauto

end verdict

section exec
variable {i : Instr} {s : State} (hs : s.cause = .none)
include hs

/-- The fault recorded after a command is the verdict on it. -/
theorem exec_records_verdict (i : Instr) : ∃ t, exec i s = .next t ∧ t.cause = verdict (readW s) i := by
  by_cases hv : verdict (readW s) i = .none
  · exact ⟨_, exec_of_verdict_none hs hv, by rw [apply_cause, hs, hv]⟩
  · exact ⟨_, exec_of_verdict_ne_none hs hv, rfl⟩

/-- A command takes exactly the fault of its verdict. -/
theorem exec_eq_faultEntry_iff {c : Cause} (hc : c ≠ .none) :
    exec i s = .next (faultEntry c s) ↔ verdict (readW s) i = c := by
  constructor
  · intro hexec
    obtain ⟨t, ht, hcause⟩ := exec_records_verdict hs i
    obtain rfl := Host.Outcome.next.inj (ht.symm.trans hexec)
    exact hcause.symm
  · rintro rfl
    exact exec_of_verdict_ne_none hs hc

end exec

theorem spells_eq_none {c : Command} :
    spells c = none ↔ (∃ e, decode c = .error e) ∨ ∃ i, decode c = .ok i ∧ i.wellFormed = false := by
  cases hdec : decode c with
  | error e => simp [spells, hdec]
  | ok i => simp [spells, hdec]

section runPort
variable {s : State}

/-- A faulted ALU ignores the word on its port, whether it decodes or not (R196). -/
theorem runPort_of_faulted (hs : s.cause ≠ .none) : runPort s = .next s := by
  cases hdec : decode s.cmd with
  | ok i => rw [runPort_of_decode hdec, exec_of_faulted hs]
  | error e => rw [runPort_of_error hdec, rejectCommand, raise_of_faulted hs]

/-- A word that spells an instruction runs as it. -/
theorem runPort_of_spells {i : Instr} (h : spells s.cmd = some i) : runPort s = exec i s :=
  runPort_of_decode (spells_eq_some.1 h).1

/-- A word that spells none takes `ILL`, by the decoder or by the width condition (R191). -/
theorem runPort_of_spells_none (hs : s.cause = .none) (h : spells s.cmd = none) :
    runPort s = .next (faultEntry .ill s) := by
  rcases spells_eq_none.1 h with ⟨e, hdec⟩ | ⟨i, hdec, hill⟩
  · rw [runPort_of_error hdec, rejectCommand_of_not_faulted hs]
  · rw [runPort_of_decode hdec, exec_eq_faultEntry_iff hs (by decide), verdict_eq_ill_iff, hill]

/-- The port of an ALU that is not faulted answers a fault entry, or a state in which no fault is recorded. -/
theorem runPort_cases {t : State} (hs : s.cause = .none) (h : runPort s = .next t) :
    (∃ c, t = faultEntry c s) ∨ t.cause = .none := by
  cases hspells : spells s.cmd with
  | none =>
    rw [runPort_of_spells_none hs hspells] at h
    exact .inl ⟨.ill, (Host.Outcome.next.inj h).symm⟩
  | some i =>
    rw [runPort_of_spells hspells] at h
    rcases exec_cases h with ⟨hfaulted, -⟩ | ⟨-, -, ht⟩ | ⟨-, -, rfl⟩
    · exact absurd hs hfaulted
    · exact .inl ⟨_, ht⟩
    · exact .inr ((apply_cause s _).trans hs)

end runPort

section step
variable {s : State} {rest : List HostEvent}

/-- The step on an issued word is the port's, on the state with the word and its data on the ports. -/
theorem step_of_issue {c : Command} {d : Word} (hfeed : s.feed = .issue c d :: rest) :
    step s = runPort (present s c d rest) := step_of_action hfeed

/-- A faulted ALU takes an issued word off the feed and ignores it (R196). -/
theorem step_of_issue_faulted {c : Command} {d : Word} (hs : s.cause ≠ .none) (hfeed : s.feed = .issue c d :: rest) :
    step s = .next (present s c d rest) :=
  (step_of_issue hfeed).trans (runPort_of_faulted (s := present s c d rest) hs)

/-- Reset, between commands or during one, answers the reset state of R20 (R210). -/
theorem step_of_reset {e : HostEvent} (hfeed : s.feed = e :: rest)
    (hreset : e = .reset ∨ ∃ c d, e = .issueCutByReset c d) :
    ∃ t, step s = .next t ∧ t.toAlu = Alu.reset ∧ t.feed = rest := by
  obtain ⟨t, ht, halu, hrest⟩ := hostAction_answers s rest e
  refine ⟨t, (step_of_action hfeed).trans ht, ?_, hrest⟩
  rcases hreset with rfl | ⟨c, d, rfl⟩
  · exact halu
  · exact halu

end step

/-! The faulted state over a run. -/

/-- What every step keeps is kept by a run of any length. -/
theorem run_preserves {P : State → Prop} (hstep : ∀ s, P s → ∃ t, step s = .next t ∧ P t) (n : Nat) :
    ∀ s, P s → ∃ t, core.run n s = .next t ∧ P t := by
  induction n with
  | zero => exact fun s hs => ⟨s, rfl, hs⟩
  | succ n ih =>
    intro s hs
    obtain ⟨u, hu, hPu⟩ := hstep s hs
    obtain ⟨t, ht, hPt⟩ := ih u hPu
    exact ⟨t, (run_succ_of_step hu n).trans ht, hPt⟩

/-- R20's state is `a`, and no reset is to come. -/
def HoldsAlu (a : Alu) (s : State) : Prop := s.toAlu = a ∧ CommandsOnly s.feed

/-- A faulted state of R20 is held by every step while no reset comes (R196, R205). -/
theorem step_holds_faulted_alu {a : Alu} (ha : a.cause ≠ .none) (s : State) (h : HoldsAlu a s) :
    ∃ t, step s = .next t ∧ HoldsAlu a t := by
  obtain ⟨rfl, hcommands⟩ := h
  cases hfeed : s.feed with
  | nil => exact ⟨s, step_of_idle hfeed, rfl, hcommands⟩
  | cons e rest =>
    rw [hfeed, CommandsOnly, List.forall_mem_cons] at hcommands
    obtain ⟨⟨c, d, rfl⟩, hrest⟩ := hcommands
    exact ⟨present s c d rest, step_of_issue_faulted ha hfeed, rfl, hrest⟩

end Sys2Proof.Machine
end

section
/-! The statements on the faults and on reset (spec/60_exceptions.md R191 to R196; 70_reset_and_hazards.md R205, R210,
R211, R214, R217). -/

namespace Sys2Proof.Machine

/-- Settles O10: every step holds a faulted state of R20 while only commands come, so a run of any length does. -/
theorem faultedRunKeepsState : Obligations.FaultedRunKeepsState := by
  intro n s hs hcommands
  obtain ⟨t, hrun, halu, -⟩ := run_preserves (step_holds_faulted_alu hs) n s ⟨rfl, hcommands⟩
  exact ⟨t, hrun, halu⟩

/-- Settles O5: a word that spells none takes `ILL`, and a spelled instruction is well formed, so its verdict is not
`ILL`. -/
theorem illExactlyWhenNoInstruction : Obligations.IllExactlyWhenNoInstruction := by
  intro s c d rest hs hfeed
  cases hspells : spells c with
  | none =>
    have hport := runPort_of_spells_none (s := present s c d rest) hs hspells
    exact ⟨_, (step_of_issue hfeed).trans hport, iff_of_true rfl rfl, fun _ => rfl⟩
  | some i =>
    have hport := runPort_of_spells (s := present s c d rest) hspells
    obtain ⟨t, hexec, hcause⟩ := exec_records_verdict (s := present s c d rest) hs i
    refine ⟨t, (step_of_issue hfeed).trans (hport.trans hexec), ?_, fun hnone => nomatch hnone⟩
    rw [hcause, verdict_eq_ill_iff, (spells_eq_some.1 hspells).2]
    simp

/-- Settles O14: a step that ends faulted is a fault entry on the state with the word on the command port. -/
theorem faultEntryIsPrecise : Obligations.FaultEntryIsPrecise := by
  intro s t c d rest hs hfeed hstep ht
  rw [step_of_issue hfeed] at hstep
  rcases runPort_cases (s := present s c d rest) hs hstep with ⟨cause, rfl⟩ | hnone
  · exact ⟨rfl, fun _ => rfl, ⟨rfl, rfl, rfl⟩, rfl, rfl⟩
  · exact absurd hnone ht

/-- Settles O15: the four cases are the four verdicts. -/
theorem faultPriority : Obligations.FaultPriority := by
  intro i s hs
  refine ⟨fun hill => ?_, fun hi hcan => ?_, fun hi hcan hzero => ?_, fun hi hcan hdiv => ?_⟩
  · exact (exec_eq_faultEntry_iff hs (by decide)).2 (verdict_eq_ill_iff.2 hill)
  · exact (exec_eq_faultEntry_iff hs (by decide)).2 (verdict_eq_ncn_iff.2 ⟨hi, hcan⟩)
  · exact (exec_eq_faultEntry_iff hs (by decide)).2 (verdict_eq_dbz_iff.2 ⟨hi, hcan, hzero⟩)
  · obtain ⟨t, hexec, hcause⟩ := exec_records_verdict hs i
    exact ⟨t, hexec, hcause.trans (verdict_eq_none_iff.2 ⟨hi, hcan, hdiv⟩)⟩

/-- The commands that read no register under a format are PUT and GET (R192). -/
theorem readsUnder_ne_nil_iff (i : Instr) : readsUnder i ≠ [] ↔ i.mnemonic ∈
    ["CVT.TRN", "CVT.RND", "CVT.RTZ", "SAT", "TOVF", "ADD", "SUB", "NEG", "MUL", "DIV", "CMP"] := by
  cases i with
  | putTrn | putRnd | putRtz | get => exact iff_of_false (not_not.2 rfl) (by simp [Instr.mnemonic])
  | _ => exact iff_of_true (List.cons_ne_nil _ _) (by simp [Instr.mnemonic])

/-- Settles O16: `NCN` is the verdict on a well-formed command with an operand that `norm` changes. -/
theorem ncnExactlyWhenNotCanonical : Obligations.NcnExactlyWhenNotCanonical := by
  refine ⟨fun i s hs hi => ?_, readsUnder_ne_nil_iff⟩
  rw [exec_eq_faultEntry_iff hs (by decide), verdict_eq_ncn_iff, and_iff_right hi]
  simp only [canonical_iff, not_forall, exists_prop, ne_eq]

/-- Settles O7: without an action the state holds, and reset is an action that ends in the reset state of R20. -/
theorem idleAndResetSteps : Obligations.IdleAndResetSteps :=
  ⟨fun _ => step_of_idle, fun _ _ _ => step_of_reset⟩

/-- Settles O9: idle steps and issued words keep `CAUSE`, so a step that clears it took one of the two resets. -/
theorem faultedAluIgnoresCommands : Obligations.FaultedAluIgnoresCommands := by
  refine ⟨fun s c d rest hs hfeed => step_of_issue_faulted hs hfeed, fun s t hs hstep ht => ?_⟩
  cases hfeed : s.feed with
  | nil =>
    obtain rfl := Host.Outcome.next.inj ((step_of_idle hfeed).symm.trans hstep)
    exact absurd ht hs
  | cons e rest =>
    cases e with
    | issue c d =>
      obtain rfl := Host.Outcome.next.inj ((step_of_issue_faulted hs hfeed).symm.trans hstep)
      exact absurd ht hs
    | reset => exact ⟨_, rest, rfl, .inl rfl⟩
    | issueCutByReset c d => exact ⟨_, rest, rfl, .inr ⟨c, d, rfl⟩⟩

/-- Settles O37: the difference is exact in the result format, and bit 127 is its sign. -/
theorem signedOrderFromSub : Obligations.SignedOrderFromSub := by
  intro rd ra rb f s hs hf hint hx hy
  have hmax : max f.int f.int ≤ 63 := max_le hint hint
  have hi : Instr.wellFormed (.sub rd ra rb .signed f f) = true := decide_eq_true ⟨hf, hf, hmax⟩
  have hsub := exec_of_operandsCanonical hs hi rfl (operandsCanonical_of_two rfl hx hy)
  have hget := exec_of_operandsCanonical (i := .get rd) (s := writeW s rd
    (norm (wsub (readW s ra) (readW s rb)) (addFmt f f) .signed)) hs rfl rfl (operandsCanonical_of_none rfl)
  refine ⟨_, _, hsub, hget, ?_⟩
  simp only [effect, Effect.apply, writeDout_dout, readW_writeW_same]
  rw [getLsbD_sign_eq_true_iff, sval_norm_wsub hf hf hmax hx hy, sub_neg]

/-- Settles O8: zero in every field of the table, and zero is canonical under every valid format. -/
theorem resetStateIsTheTable : Obligations.ResetStateIsTheTable :=
  ⟨readW_reset, rfl, rfl, rfl, rfl, rfl, rfl, rfl, fun r _ sg hf => readW_reset r ▸ canonical_zero hf sg⟩

end Sys2Proof.Machine
end
